-- ==== Sys2Proof/Word.lean ====
section
/-! DEFINITION. The value types of the machine: register bytes, memory words, opcode fields, register
indices and the second operand of an instruction. -/

namespace Sys2Proof

/-- A register's contents, "an 8-bit unsigned value" (10_state.md R21). -/
abbrev Byte := BitVec 8

/-- A memory or instruction word of 16 bits (10_state.md R32, 30_encoding.md R55). -/
abbrev Word := BitVec 16

/-- The opcode field `w[15:11]` (30_encoding.md R56). -/
abbrev Opcode := BitVec 5

/-- The index of a general register, 0 to 7 (10_state.md R21). -/
abbrev Reg := Fin 8

/-- The second operand as an instruction names it (30_encoding.md R57, R58, R67): `rK` or `#k`.
Which integers `#k` may hold is `Src2.wf`'s to say. -/
inductive Src2 where
  /-- Register form: the imm-flag is 0 and bits 2:0 name the register. -/
  | reg (r : Reg)
  /-- Immediate form: the imm-flag is 1 and the literal is `k`. -/
  | imm (k : Int)
deriving DecidableEq, Repr

end Sys2Proof
end

