-- ==== Sys2Proof/Config.lean ====
section
/-! DEFINITION. The three parameters of the hardware that the spec leaves OPEN (00_scope.md R7): the
memory size, the opcode map and the field STR stores from. They are plain data, fixed at construction. -/

namespace Sys2Proof

/-- The 30 mnemonics (00_scope.md R2), the domain of `OPCODE_MAP`. -/
inductive Mnemonic where
  | nop
  | add | sub | mul | div | neg
  | and | or | xor | not | lsl | lsr | asr
  | beq | bneq | blt | ble | bgt | bge | b | bcs | bcc | bmi | bpl | bvs | bvc | bhi | bls
  | ldr | str
deriving DecidableEq, Repr

/-- The place of a mnemonic in the order in which the spec lists the instructions (30_encoding.md R62). -/
def Mnemonic.index : Mnemonic → Fin 30
  | .nop => 0
  | .add => 1 | .sub => 2 | .mul => 3 | .div => 4 | .neg => 5
  | .and => 6 | .or => 7 | .xor => 8 | .not => 9 | .lsl => 10 | .lsr => 11 | .asr => 12
  | .beq => 13 | .bneq => 14 | .blt => 15 | .ble => 16 | .bgt => 17 | .bge => 18 | .b => 19
  | .bcs => 20 | .bcc => 21 | .bmi => 22 | .bpl => 23 | .bvs => 24 | .bvc => 25 | .bhi => 26 | .bls => 27
  | .ldr => 28 | .str => 29

/-- Every mnemonic, in that order. -/
def Mnemonic.all : List Mnemonic :=
  [.nop] ++ [.add, .sub, .mul, .div, .neg] ++ [.and, .or, .xor, .not, .lsl, .lsr, .asr] ++
  [.beq, .bneq, .blt, .ble, .bgt, .bge, .b] ++ [.bcs, .bcc, .bmi, .bpl, .bvs, .bvc, .bhi, .bls] ++
  [.ldr, .str]

/-- `OPCODE_MAP` (00_scope.md R7, 30_encoding.md R60): the opcode value of each mnemonic, held at
`Mnemonic.index`. That it is one-to-one is `OpcodeMap.wf`. -/
abbrev OpcodeMap := Vector Opcode 30

/-- `STR_DATA_FIELD` (45_memory.md R183): the field that names the register STR stores. -/
inductive StrDataField where
  | src1
  | dest
  | src2
deriving DecidableEq, Repr

/-- The parameters an engine is built with (00_scope.md R7). No cycle changes them (10_state.md R35). -/
structure Config where
  /-- `MEM_SIZE`: the number of 16-bit words in memory, any natural number. -/
  memSize : Nat
  /-- `OPCODE_MAP`. -/
  opcodeMap : OpcodeMap
  /-- `STR_DATA_FIELD`. -/
  strDataField : StrDataField
deriving DecidableEq, Repr

end Sys2Proof
end

