-- ==== Sys2Proof/Syntax.lean ====
section
/-! DEFINITION. The instruction set: one constructor per row of the opcode table, with the operands
that 30_encoding.md R61 says the instruction uses (short forms of R67). Fields R61 marks "ignored" are
no operands. -/

namespace Sys2Proof

/-- The 30 instructions. `d` is the destination register, `a` the register of the first operand `X`,
`y` the second operand `Y`. STR keeps both register fields, since the parameter `STR_DATA_FIELD` decides
which of them it reads (45_memory.md R183). -/
inductive Instr where
  | nop
  | add (d a : Reg) (y : Src2)
  | sub (d a : Reg) (y : Src2)
  | mul (d a : Reg) (y : Src2)
  | div (d a : Reg) (y : Src2)
  | neg (d : Reg) (y : Src2)
  | and (d a : Reg) (y : Src2)
  | or (d a : Reg) (y : Src2)
  | xor (d a : Reg) (y : Src2)
  | not (d : Reg) (y : Src2)
  | lsl (d a : Reg) (y : Src2)
  | lsr (d a : Reg) (y : Src2)
  | asr (d a : Reg) (y : Src2)
  | beq (y : Src2)
  | bneq (y : Src2)
  | blt (y : Src2)
  | ble (y : Src2)
  | bgt (y : Src2)
  | bge (y : Src2)
  | b (y : Src2)
  | bcs (y : Src2)
  | bcc (y : Src2)
  | bmi (y : Src2)
  | bpl (y : Src2)
  | bvs (y : Src2)
  | bvc (y : Src2)
  | bhi (y : Src2)
  | bls (y : Src2)
  | ldr (d : Reg) (y : Src2)
  | str (d a : Reg) (y : Src2)
deriving DecidableEq, Repr

end Sys2Proof
end

