-- ==== Sys2Proof/WellFormed.lean ====
section
/-! DEFINITION. Which instructions have an encoding, and which parameter values are an `OPCODE_MAP`.
Register indices are bounded by their type; the checks here are the immediate's range and that the
opcode map is one-to-one. -/

namespace Sys2Proof

/-- An immediate takes "only the 16 values -16..-1" (30_encoding.md R58, 90_conflicts.md C1). -/
def Src2.wf : Src2 → Bool
  | .reg _ => true
  | .imm k => decide (-16 ≤ k) && decide (k ≤ -1)

/-- The second operand of an instruction, where it has one (30_encoding.md R61: all but NOP). -/
def Instr.src2? : Instr → Option Src2
  | .nop => none
  | .add _ _ y | .sub _ _ y | .mul _ _ y | .div _ _ y | .neg _ y => some y
  | .and _ _ y | .or _ _ y | .xor _ _ y | .not _ y | .lsl _ _ y | .lsr _ _ y | .asr _ _ y => some y
  | .beq y | .bneq y | .blt y | .ble y | .bgt y | .bge y | .b y => some y
  | .bcs y | .bcc y | .bmi y | .bpl y | .bvs y | .bvc y | .bhi y | .bls y => some y
  | .ldr _ y | .str _ _ y => some y

/-- An instruction is well formed when its second operand can be encoded. -/
def Instr.wf (i : Instr) : Bool :=
  match i.src2? with
  | none => true
  | some y => y.wf

/-- `OPCODE_MAP` is "a one-to-one map from the 30 mnemonics to 30 of the 32 values" (00_scope.md R7). -/
def OpcodeMap.wf (map : OpcodeMap) : Bool := decide map.toList.Nodup

/-- Parameter values an engine can be built with: `MEM_SIZE` is any natural number and `STR_DATA_FIELD`
any of its three values, so only the opcode map is checked. -/
def Config.wf (cfg : Config) : Bool := cfg.opcodeMap.wf

end Sys2Proof
end

