-- ==== Sys2Proof/Decode.lean ====
section
/-! DEFINITION. Decoding an instruction word (30_encoding.md R56 to R64), the default opcode map of
R62, and after them an encoder (R66) written from the same layout. -/

namespace Sys2Proof

/-! ## The default opcode map -/

/-- The default `OPCODE_MAP`, row by row (30_encoding.md R62; the spec's own choice D1, log 1). -/
def Mnemonic.defaultOpcode : Mnemonic → Opcode
  | .nop => 0b00000
  | .add => 0b00001
  | .sub => 0b00010
  | .mul => 0b00011
  | .div => 0b00100
  | .neg => 0b00101
  | .and => 0b00110
  | .or => 0b00111
  | .xor => 0b01000
  | .not => 0b01001
  | .lsl => 0b01010
  | .lsr => 0b01011
  | .asr => 0b01100
  | .beq => 0b01101
  | .bneq => 0b01110
  | .blt => 0b01111
  | .ble => 0b10000
  | .bgt => 0b10001
  | .bge => 0b10010
  | .b => 0b10011
  | .bcs => 0b10100
  | .bcc => 0b10101
  | .bmi => 0b10110
  | .bpl => 0b10111
  | .bvs => 0b11000
  | .bvc => 0b11001
  | .bhi => 0b11010
  | .bls => 0b11011
  | .ldr => 0b11100
  | .str => 0b11101

/-- That map as a value of the parameter. -/
def defaultOpcodeMap : OpcodeMap := ⟨⟨Mnemonic.all.map Mnemonic.defaultOpcode⟩, rfl⟩

/-- The opcode value a map gives a mnemonic. -/
def OpcodeMap.opcodeOf (map : OpcodeMap) (m : Mnemonic) : Opcode := map[m.index]

/-- The mnemonic a map gives an opcode value, if any (30_encoding.md R60). Of a map that is not
one-to-one, which no engine has, it is the first in R62's order (DESIGN CHOICE, log 13). -/
def OpcodeMap.mnemonicOf? (map : OpcodeMap) (op : Opcode) : Option Mnemonic :=
  Mnemonic.all.find? fun m => map.opcodeOf m == op

/-! ## The fields of a word (30_encoding.md R56) -/

/-- `w[15:11]`. -/
def opcodeField (w : Word) : Opcode := w.extractLsb' 11 5

/-- `w[10:8]`. -/
def destField (w : Word) : Reg := (w.extractLsb' 8 3).toFin

/-- `w[7:5]`. -/
def src1Field (w : Word) : Reg := (w.extractLsb' 5 3).toFin

/-- The imm-flag `w[4:4]`. -/
def immFlag (w : Word) : Bool := w.getLsbD 4

/-- `w[4:0]`, the src2-field with the imm-flag as its top bit. -/
def src2Field (w : Word) : BitVec 5 := w.extractLsb' 0 5

/-- `sext_5` (00_scope.md R10). -/
def sext5 (v : BitVec 5) : Int := v.toInt

/-- The register index `src2[2:0]`; bit 3 is not read (30_encoding.md R57). -/
def src2RegField (v : BitVec 5) : Reg := (v.extractLsb' 0 3).toFin

/-- The second operand a word names (30_encoding.md R57, R58, R64). -/
def src2Of (w : Word) : Src2 :=
  if immFlag w then .imm (sext5 (src2Field w)) else .reg (src2RegField (src2Field w))

/-! ## Decode -/

/-- Why a word is no instruction. -/
inductive DecodeError where
  /-- The opcode field has no mapping in `OPCODE_MAP` (30_encoding.md R60). -/
  | unknownOpcode (opcode : Opcode)
deriving DecidableEq, Repr

/-- The instruction of a mnemonic with the operands of a word's fields (30_encoding.md R61). -/
def Mnemonic.withOperands (d a : Reg) (y : Src2) : Mnemonic → Instr
  | .nop => .nop
  | .add => .add d a y
  | .sub => .sub d a y
  | .mul => .mul d a y
  | .div => .div d a y
  | .neg => .neg d y
  | .and => .and d a y
  | .or => .or d a y
  | .xor => .xor d a y
  | .not => .not d y
  | .lsl => .lsl d a y
  | .lsr => .lsr d a y
  | .asr => .asr d a y
  | .beq => .beq y
  | .bneq => .bneq y
  | .blt => .blt y
  | .ble => .ble y
  | .bgt => .bgt y
  | .bge => .bge y
  | .b => .b y
  | .bcs => .bcs y
  | .bcc => .bcc y
  | .bmi => .bmi y
  | .bpl => .bpl y
  | .bvs => .bvs y
  | .bvc => .bvc y
  | .bhi => .bhi y
  | .bls => .bls y
  | .ldr => .ldr d y
  | .str => .str d a y

/-- Decode (30_encoding.md R59, R60): total on the 65536 words; a word whose opcode the map leaves
unmapped is rejected with that opcode. -/
def decode (map : OpcodeMap) (w : Word) : Except DecodeError Instr :=
  match map.mnemonicOf? (opcodeField w) with
  | none => .error (.unknownOpcode (opcodeField w))
  | some m => .ok (m.withOperands (destField w) (src1Field w) (src2Of w))

/-! ## Encode -/

/-- The mnemonic of an instruction. -/
def Instr.mnemonic : Instr → Mnemonic
  | .nop => .nop
  | .add _ _ _ => .add
  | .sub _ _ _ => .sub
  | .mul _ _ _ => .mul
  | .div _ _ _ => .div
  | .neg _ _ => .neg
  | .and _ _ _ => .and
  | .or _ _ _ => .or
  | .xor _ _ _ => .xor
  | .not _ _ => .not
  | .lsl _ _ _ => .lsl
  | .lsr _ _ _ => .lsr
  | .asr _ _ _ => .asr
  | .beq _ => .beq
  | .bneq _ => .bneq
  | .blt _ => .blt
  | .ble _ => .ble
  | .bgt _ => .bgt
  | .bge _ => .bge
  | .b _ => .b
  | .bcs _ => .bcs
  | .bcc _ => .bcc
  | .bmi _ => .bmi
  | .bpl _ => .bpl
  | .bvs _ => .bvs
  | .bvc _ => .bvc
  | .bhi _ => .bhi
  | .bls _ => .bls
  | .ldr _ _ => .ldr
  | .str _ _ _ => .str

/-- The `dest` operand, 0 where the short form leaves the field out (30_encoding.md R67). -/
def Instr.destOperand : Instr → Reg
  | .add d _ _ | .sub d _ _ | .mul d _ _ | .div d _ _ | .neg d _ => d
  | .and d _ _ | .or d _ _ | .xor d _ _ | .not d _ | .lsl d _ _ | .lsr d _ _ | .asr d _ _ => d
  | .ldr d _ | .str d _ _ => d
  | .nop | .beq _ | .bneq _ | .blt _ | .ble _ | .bgt _ | .bge _ | .b _ => 0
  | .bcs _ | .bcc _ | .bmi _ | .bpl _ | .bvs _ | .bvc _ | .bhi _ | .bls _ => 0

/-- The `src1` operand, 0 where the short form leaves the field out (30_encoding.md R67). -/
def Instr.src1Operand : Instr → Reg
  | .add _ a _ | .sub _ a _ | .mul _ a _ | .div _ a _ => a
  | .and _ a _ | .or _ a _ | .xor _ a _ | .lsl _ a _ | .lsr _ a _ | .asr _ a _ => a
  | .str _ a _ => a
  | .nop | .neg _ _ | .not _ _ | .ldr _ _ | .beq _ | .bneq _ | .blt _ | .ble _ | .bgt _ | .bge _ | .b _ => 0
  | .bcs _ | .bcc _ | .bmi _ | .bpl _ | .bvs _ | .bvc _ | .bhi _ | .bls _ => 0

/-- A register index as the bits of a field. -/
def regBits (r : Reg) : BitVec 3 := BitVec.ofFin r

/-- The raw src2-field of an operand: `K` for `rK`, `k mod 32` for `#k` (30_encoding.md R66, R67). -/
def Src2.field : Src2 → BitVec 5
  | .reg r => (regBits r).setWidth 5
  | .imm k => BitVec.ofInt 5 k

/-- The four fields at their places in the word (30_encoding.md R56, R66). -/
def packFields (op : Opcode) (d a : Reg) (y : BitVec 5) : Word :=
  (op.setWidth 16 <<< 11) ||| ((regBits d).setWidth 16 <<< 8) ||| ((regBits a).setWidth 16 <<< 5) ||| y.setWidth 16

/-- The word of an instruction under a map (30_encoding.md R66, R67). -/
def encode (map : OpcodeMap) (i : Instr) : Word :=
  packFields (map.opcodeOf i.mnemonic) i.destOperand i.src1Operand ((i.src2?.map Src2.field).getD 0)

/-- The bits of its word an instruction depends on (30_encoding.md R57, R61, R63): its opcode, the fields
it uses, and of the src2-field all five bits in the immediate form, bits 4 and 2:0 in the register form. -/
def Instr.usedBits (i : Instr) : Word :=
  let useDest : Word := match i with
    | .nop | .beq _ | .bneq _ | .blt _ | .ble _ | .bgt _ | .bge _ | .b _ => 0
    | .bcs _ | .bcc _ | .bmi _ | .bpl _ | .bvs _ | .bvc _ | .bhi _ | .bls _ => 0
    | .add _ _ _ | .sub _ _ _ | .mul _ _ _ | .div _ _ _ | .neg _ _ | .and _ _ _ | .or _ _ _ => 0x0700
    | .xor _ _ _ | .not _ _ | .lsl _ _ _ | .lsr _ _ _ | .asr _ _ _ | .ldr _ _ | .str _ _ _ => 0x0700
  let useSrc1 : Word := match i with
    | .nop | .beq _ | .bneq _ | .blt _ | .ble _ | .bgt _ | .bge _ | .b _ => 0
    | .bcs _ | .bcc _ | .bmi _ | .bpl _ | .bvs _ | .bvc _ | .bhi _ | .bls _ => 0
    | .neg _ _ | .not _ _ | .ldr _ _ => 0
    | .add _ _ _ | .sub _ _ _ | .mul _ _ _ | .div _ _ _ | .and _ _ _ | .or _ _ _ | .xor _ _ _ => 0x00E0
    | .lsl _ _ _ | .lsr _ _ _ | .asr _ _ _ | .str _ _ _ => 0x00E0
  let useSrc2 : Word := match i.src2? with
    | none => 0
    | some (.reg _) => 0x0017
    | some (.imm _) => 0x001F
  0xF800 ||| useDest ||| useSrc1 ||| useSrc2

/-! ## The host's view -/

/-- The word of an instruction of `nbits` bits whose bits are `w`: the first 16 bits, those above `nbits`
zero. A word is the memory's unit, so no byte order enters (20_memory.md R40, log 5). -/
def tableWord (nbits w : Nat) : Word := BitVec.ofNat 16 (w % 2 ^ nbits)

/-- What the decoder reads from an opcode-table word under the default map, the one the table is written
for. Every instruction is one 16-bit word (30_encoding.md R55), so a longer row is none. -/
def decodeTableWord (nbits w : Nat) : Option Instr :=
  if nbits ≤ 16 then
    match decode defaultOpcodeMap (tableWord nbits w) with
    | .ok i => some i
    | .error _ => none
  else none

end Sys2Proof
end

