-- ==== Sys2Proof/Machine/Parameters.lean ====
section
/-! DEFINITION. The parameter values of the engine that State.reset describes. -/

namespace Sys2Proof

/-- The reference parameters: `MEM_SIZE` 16 as in the reference demo (00_scope.md R7; DESIGN CHOICE, log 2),
the default map of 30_encoding.md R62 (log 1) and the default `STR_DATA_FIELD` (45_memory.md R183, log 3). -/
def Config.reference : Config where
  memSize := 16
  opcodeMap := defaultOpcodeMap
  strDataField := .src1

end Sys2Proof
end

