-- ==== Sys2Proof/Machine/State.lean ====
section
/-! DEFINITION. The state of the engine, the reasons a step can stop, and the state right after
construction with an empty image. -/

namespace Sys2Proof.Machine

/-- The four flags, "four independent booleans" (10_state.md R28). -/
structure Flags where
  /-- Zero. -/
  z : Bool
  /-- Carry. -/
  c : Bool
  /-- Negative. -/
  n : Bool
  /-- Overflow. -/
  v : Bool
deriving DecidableEq, Repr

/-- The word memory as plain data: (word address, word) pairs, addresses strictly rising, no entry equal to
what an unlisted address reads as (`Memory.wf`). The cell is the 16-bit word, the memory's smallest unit
(20_memory.md R40; DESIGN CHOICE of the representation, log 5). -/
abbrev Memory := List (Nat × Word)

/-- The whole state (10_state.md R20, R33), with the parameters the engine was built with (log 4). -/
structure State where
  /-- The parameters fixed at construction (00_scope.md R7). -/
  cfg : Config
  /-- The program counter, in words (10_state.md R24). -/
  pc : Nat
  /-- `x[0]` to `x[7]` (10_state.md R21). -/
  regs : Vector Byte 8
  /-- `Z`, `C`, `N`, `V` (10_state.md R28). -/
  flags : Flags
  /-- `mem[0]` to `mem[MEM_SIZE - 1]` (10_state.md R32). -/
  mem : Memory
  /-- The remaining step budget of the `run` call in progress, `none` between calls (10_state.md R33). -/
  budget : Option Nat
deriving DecidableEq, Repr

/-- The three fatal errors (60_exceptions.md R200), with the detail each records. Each ends the run and
leaves the state of the cycle unwritten, so stopping is what the hardware does: safe. -/
inductive Fault where
  /-- Raised by the decoder for an opcode `OPCODE_MAP` leaves unmapped (60_exceptions.md R201). Safe. -/
  | unknownOpcode (opcode : Opcode)
  /-- Raised by DIV with `Y8 = 0` (60_exceptions.md R202). Safe. -/
  | divisionByZero
  /-- Raised by the fetch, by LDR and STR, and by a taken branch, for an address outside
  `0..MEM_SIZE - 1` (60_exceptions.md R203). Safe; that it writes nothing is the spec's decision D13 (log 23). -/
  | addressOutOfRange (address : Int)
deriving DecidableEq, Repr

/-- Reasons of the model's own to stop. The spec gives every instruction its effect, so no meaning answers
with one. -/
inductive Refusal where
  /-- Raised only by an arm of exec whose instruction has no meaning yet; no arm is left so. Safe. -/
  | notModelled (mnemonic : String)
deriving DecidableEq, Repr

/-- What a cycle or a step answers. -/
abbrev Result := Host.Outcome State Fault Refusal

/-- The engine right after construction with the reference parameters and an empty image (10_state.md R34,
70_reset_and_hazards.md R220): pc 0, registers 0, flags false, memory all zero, no run in progress. -/
def State.reset : State where
  cfg := Config.reference
  pc := 0
  regs := Vector.replicate 8 0
  flags := { z := false, c := false, n := false, v := false }
  mem := []
  budget := none

end Sys2Proof.Machine
end

