-- ==== Sys2Proof/Machine/Ops.lean ====
section
/-! DEFINITION. The named operations over memory, registers, pc and step budget, and raising a fatal
error. Everything the meanings do to the state goes through these. -/

namespace Sys2Proof.Machine

/-! ## Memory as data -/

/-- What a word no entry lists reads as: 0 (10_state.md R34, 70_reset_and_hazards.md R221: the words past
the image are 0, the spec's decision D15, log 6). -/
def Memory.unlisted : Word := 0

/-- The word at an address (20_memory.md R44: reading has no effect). -/
def Memory.read : Memory → Nat → Word
  | [], _ => Memory.unlisted
  | (k, w) :: rest, a => if a = k then w else Memory.read rest a

/-- `rest` with a cell in front, unless the cell holds what is read there anyway. -/
def Memory.cons (a : Nat) (w : Word) (rest : Memory) : Memory :=
  if w = Memory.unlisted then rest else (a, w) :: rest

/-- Writes one whole word (20_memory.md R43), keeping the canonical form. -/
def Memory.write : Memory → Nat → Word → Memory
  | [], a, w => Memory.cons a w []
  | (k, u) :: rest, a, w =>
    if a < k then Memory.cons a w ((k, u) :: rest)
    else if a = k then Memory.cons a w rest
    else (k, u) :: Memory.write rest a w

/-- The canonical form: addresses strictly rising, no entry equal to what an unlisted address reads as. -/
abbrev Memory.wf (m : Memory) : Prop :=
  m.Pairwise (fun p q => p.1 < q.1) ∧ ∀ p ∈ m, p.2 ≠ Memory.unlisted

/-- The image's words at the addresses from `a` on (70_reset_and_hazards.md R221). -/
def Memory.ofWordsAt : Nat → List Word → Memory
  | _, [] => []
  | a, w :: rest => Memory.cons a w (Memory.ofWordsAt (a + 1) rest)

/-! ## Registers -/

/-- `x[r]` (00_scope.md R11). No register is hard-wired (10_state.md R21). -/
def State.reg (s : State) (r : Reg) : Byte := s.regs[r]

/-- `x[r] <- v`. -/
def State.setReg (s : State) (r : Reg) (v : Byte) : State := { s with regs := s.regs.set r v }

/-! ## Flags -/

/-- Writes all four flags. -/
def State.setFlags (s : State) (f : Flags) : State := { s with flags := f }

/-- `Z <- b`, the other flags unchanged. -/
def State.setZero (s : State) (b : Bool) : State := { s with flags := { s.flags with z := b } }

/-! ## Program counter and step budget -/

/-- `pc <- t`. -/
def State.setPc (s : State) (t : Nat) : State := { s with pc := t }

/-- The incrementer: `pc + 1`, never range-checked (40_cycle.md R85). -/
def State.advance (s : State) : State := s.setPc (s.pc + 1)

/-- Sets the step budget of the run in progress. -/
def State.setBudget (s : State) (b : Option Nat) : State := { s with budget := b }

/-! ## Fatal errors and range-checked access -/

/-- `raise E(info)` (00_scope.md R11): the cycle ends with the fatal error and writes nothing. There is no
trap entry: no state is saved, no mode changes, control goes to no handler (60_exceptions.md R207), and so
there is no return from one (R208). -/
def raise (f : Fault) : Result := .fault f

/-- An address is in range iff `0 <= a < MEM_SIZE` (20_memory.md R45); it is never wrapped. -/
abbrev State.inRange (s : State) (a : Int) : Prop := 0 ≤ a ∧ a < (s.cfg.memSize : Int)

/-- The word at a word address, unchecked. -/
def State.word (s : State) (a : Nat) : Word := s.mem.read a

/-- `MemRead(a, 1)` with its range check (20_memory.md R45). -/
def State.loadWord (s : State) (a : Int) : Except Fault Word :=
  if s.inRange a then .ok (s.word a.toNat) else .error (.addressOutOfRange a)

/-- `MemWrite(a, 1, w)` with its range check (20_memory.md R45). -/
def State.storeWord (s : State) (a : Int) (w : Word) : Except Fault State :=
  if s.inRange a then .ok { s with mem := s.mem.write a.toNat w } else .error (.addressOutOfRange a)

/-- `next_pc` of a taken branch (40_cycle.md R85): the target if it is in range, else AddressOutOfRange
(44_branch.md R151). -/
def State.jump (s : State) (t : Int) : Except Fault State :=
  if s.inRange t then .ok (s.setPc t.toNat) else .error (.addressOutOfRange t)

/-- Commit, or nothing (40_cycle.md R86): a completed cycle's state, or the fatal error alone. -/
def commit : Except Fault State → Result
  | .ok s => .next s
  | .error f => raise f

end Sys2Proof.Machine
end

