-- ==== Sys2Proof/Machine/Operands.lean ====
section
/-! DEFINITION. Operand resolution (30_encoding.md R64, R65) and the conversions of 00_scope.md R10. -/

namespace Sys2Proof.Machine

/-- `as8(i)`: "masked to 8 bits" (00_scope.md R10). -/
def as8 (i : Int) : Byte := BitVec.ofInt 8 i

/-- `w[7:0]`: what LDR keeps of a word (20_memory.md R41). -/
def lowByte (w : Word) : Byte := w.setWidth 8

/-- `zext_16(v)` (00_scope.md R10): what STR writes (20_memory.md R41; the spec's decision D9, log 19). -/
def zext16 (v : Byte) : Word := v.setWidth 16

/-- The first operand `X`, always a register (30_encoding.md R65). -/
def State.operandX (s : State) (a : Reg) : Byte := s.reg a

/-- The second operand `Y`, an integer: a register's unsigned value or the signed immediate
(30_encoding.md R64). -/
def State.operandY (s : State) : Src2 → Int
  | .reg r => (s.reg r).toNat
  | .imm k => k

/-- `Y8 = as8(Y)`: the pattern the ALU sees (40_cycle.md R84; the spec's decision D4, log 15). -/
def State.operandY8 (s : State) (y : Src2) : Byte := as8 (s.operandY y)

/-- The register index `src2[2:0]` of the second operand's field; of an immediate, its low three bits. -/
def Src2.lowIndex : Src2 → Reg
  | .reg r => r
  | .imm k => ((BitVec.ofInt 5 k).extractLsb' 0 3).toFin

/-- The register STR stores, as `STR_DATA_FIELD` names it (45_memory.md R183). -/
def strDataReg (field : StrDataField) (d a : Reg) (y : Src2) : Reg :=
  match field with
  | .src1 => a
  | .dest => d
  | .src2 => Src2.lowIndex y

end Sys2Proof.Machine
end

