-- ==== Sys2Proof/Machine/Flags.lean ====
section
/-! DEFINITION. Every flag computation of the spec (42_arithmetic.md R106 to R109). -/

namespace Sys2Proof.Machine

/-- Zero: `R == 0` (42_arithmetic.md R106). -/
def zeroFlag (r : Byte) : Bool := r == 0

/-- Negative: `R[7:7] == 1` (42_arithmetic.md R107; the spec's decision D3, log 14). -/
def negativeFlag (r : Byte) : Bool := r.getLsbD 7

/-- Overflow: `N != Z` of the same instruction, "the model's own overflow rule" (42_arithmetic.md R109). -/
def overflowFlag (n z : Bool) : Bool := n != z

/-- Carry of ADD: `U > 255` (42_arithmetic.md R108). -/
def carryAdd (u : Int) : Bool := decide (u > 255)

/-- Carry of SUB, the borrow: `U < 0` (42_arithmetic.md R108). -/
def carrySub (u : Int) : Bool := decide (u < 0)

/-- Carry of MUL: `U > 255` (42_arithmetic.md R108; the spec's decision D5, log 16). -/
def carryMul (u : Int) : Bool := decide (u > 255)

/-- Carry of DIV: `false`, the quotient is never out of range (42_arithmetic.md R108; D5, log 16). -/
def carryDiv (_ : Int) : Bool := false

/-- Carry of NEG: `U < 0` (42_arithmetic.md R108; the spec's decision D5, log 16). -/
def carryNeg (u : Int) : Bool := decide (u < 0)

/-- The four flags an arithmetic instruction writes for its result `R` and carry (42_arithmetic.md R105). -/
def arithFlags (r : Byte) (c : Bool) : Flags where
  z := zeroFlag r
  c := c
  n := negativeFlag r
  v := overflowFlag (negativeFlag r) (zeroFlag r)

/-- The arithmetic result shape (42_arithmetic.md R105): `R = as8(U)` into `x[dest]`, all four flags, pc + 1. -/
def State.arithmetic (s : State) (d : Reg) (u : Int) (carry : Int → Bool) : State :=
  ((s.setReg d (as8 u)).setFlags (arithFlags (as8 u) (carry u))).advance

/-- The logical/shift result shape (43_logical_shift.md R130), also LDR's (45_memory.md R181): `R` into
`x[dest]`, Zero only, pc + 1. -/
def State.logical (s : State) (d : Reg) (r : Byte) : State :=
  ((s.setReg d r).setZero (zeroFlag r)).advance

end Sys2Proof.Machine
end

