-- ==== Sys2Proof/Machine/Arithmetic.lean ====
section
/-! DEFINITION. The arithmetic instructions (42_arithmetic.md R110 to R114), each from its unbounded result `U`. -/

namespace Sys2Proof.Machine

/-- ADD (42_arithmetic.md R110): `U <- X + Y8`. -/
def execAdd (d a : Reg) (y : Src2) (s : State) : Result :=
  .next (s.arithmetic d ((s.operandX a).toNat + (s.operandY8 y).toNat) carryAdd)

/-- SUB (42_arithmetic.md R111): `U <- X - Y8`. -/
def execSub (d a : Reg) (y : Src2) (s : State) : Result :=
  .next (s.arithmetic d ((s.operandX a).toNat - (s.operandY8 y).toNat) carrySub)

/-- MUL (42_arithmetic.md R112): `U <- X * Y8`. -/
def execMul (d a : Reg) (y : Src2) (s : State) : Result :=
  .next (s.arithmetic d ((s.operandX a).toNat * (s.operandY8 y).toNat) carryMul)

/-- `floor(X / Y8)`, both unsigned (42_arithmetic.md R113; the spec's decision D6, log 17). -/
def quotient (x y8 : Byte) : Int := (x.toNat / y8.toNat : Nat)

/-- DIV (42_arithmetic.md R113): DivisionByZero when `Y8 == 0`, else `U <- floor(X / Y8)`. -/
def execDiv (d a : Reg) (y : Src2) (s : State) : Result :=
  if s.operandY8 y = 0 then raise .divisionByZero
  else .next (s.arithmetic d (quotient (s.operandX a) (s.operandY8 y)) carryDiv)

/-- NEG (42_arithmetic.md R114): `U <- 0 - Y8`; `X` is not used. -/
def execNeg (d : Reg) (y : Src2) (s : State) : Result :=
  .next (s.arithmetic d (0 - ((s.operandY8 y).toNat : Int)) carryNeg)

end Sys2Proof.Machine
end

