-- ==== Sys2Proof/Machine/Branch.lean ====
section
/-! DEFINITION. The branch result shape (44_branch.md R150, R151) and the 15 branches, each with its
condition from the table of R152, transcribed as the source writes it (93_implementation_defined.md I4). -/

namespace Sys2Proof.Machine

/-- `t = pc + 1 + Y`, with `pc` the branch's own address (44_branch.md R150); a register displacement is
unsigned (the spec's decision D11, log 21). -/
def State.branchTarget (s : State) (y : Src2) : Int := (s.pc : Int) + 1 + s.operandY y

/-- Taken: to the target, range-checked at the branch; not taken: `pc + 1`, nothing checked
(44_branch.md R150, R151; the spec's decision D12, log 22). -/
def branch (taken : Bool) (y : Src2) (s : State) : Result :=
  if taken then commit (s.jump (s.branchTarget y)) else .next s.advance

/-- BEQ (44_branch.md R155): Zero. -/
def execBeq (y : Src2) (s : State) : Result := branch s.flags.z y s

/-- BNEQ (44_branch.md R156): !Zero. -/
def execBneq (y : Src2) (s : State) : Result := branch (!s.flags.z) y s

/-- BLT (44_branch.md R157): Negative != Overflow. -/
def execBlt (y : Src2) (s : State) : Result := branch (s.flags.n != s.flags.v) y s

/-- BLE (44_branch.md R158): !Zero && Negative == Overflow, as the source's table gives it. -/
def execBle (y : Src2) (s : State) : Result := branch (!s.flags.z && s.flags.n == s.flags.v) y s

/-- BGT (44_branch.md R159): Zero && Negative == Overflow, as the source's table gives it. -/
def execBgt (y : Src2) (s : State) : Result := branch (s.flags.z && s.flags.n == s.flags.v) y s

/-- BGE (44_branch.md R160): Negative == Overflow. -/
def execBge (y : Src2) (s : State) : Result := branch (s.flags.n == s.flags.v) y s

/-- B (44_branch.md R161): always. -/
def execB (y : Src2) (s : State) : Result := branch true y s

/-- BCS (44_branch.md R162): Carry. -/
def execBcs (y : Src2) (s : State) : Result := branch s.flags.c y s

/-- BCC (44_branch.md R163): !Carry. -/
def execBcc (y : Src2) (s : State) : Result := branch (!s.flags.c) y s

/-- BMI (44_branch.md R164): Negative. -/
def execBmi (y : Src2) (s : State) : Result := branch s.flags.n y s

/-- BPL (44_branch.md R165): !Negative. -/
def execBpl (y : Src2) (s : State) : Result := branch (!s.flags.n) y s

/-- BVS (44_branch.md R166): Overflow. -/
def execBvs (y : Src2) (s : State) : Result := branch s.flags.v y s

/-- BVC (44_branch.md R167): !Overflow. -/
def execBvc (y : Src2) (s : State) : Result := branch (!s.flags.v) y s

/-- BHI (44_branch.md R168): Carry && !Zero. -/
def execBhi (y : Src2) (s : State) : Result := branch (s.flags.c && !s.flags.z) y s

/-- BLS (44_branch.md R169): !(Carry && !Zero). -/
def execBls (y : Src2) (s : State) : Result := branch (!(s.flags.c && !s.flags.z)) y s

end Sys2Proof.Machine
end

