-- ==== Sys2Proof/Machine/LoadStore.lean ====
section
/-! DEFINITION. The memory instructions (45_memory.md R180 to R183). The word address is `Y` itself, a
negative one is out of range (the spec's decision D10, log 20). -/

namespace Sys2Proof.Machine

/-- LDR (45_memory.md R181): `w[7:0]` of the word at `Y` into `x[dest]`, Zero from it, pc + 1. -/
def execLdr (d : Reg) (y : Src2) (s : State) : Result :=
  commit ((s.loadWord (s.operandY y)).map fun w => s.logical d (lowByte w))

/-- STR (45_memory.md R182, R183): the data register zero-extended into the word at `Y`, no flag, pc + 1. -/
def execStr (d a : Reg) (y : Src2) (s : State) : Result :=
  commit ((s.storeWord (s.operandY y) (zext16 (s.reg (strDataReg s.cfg.strDataField d a y)))).map State.advance)

end Sys2Proof.Machine
end

