-- ==== Sys2Proof/Machine/Logical.lean ====
section
/-! DEFINITION. The logical and shift instructions (43_logical_shift.md R132 to R138). Shift amounts are
`Y8` unmasked (R131; the spec's decision D7, log 18). -/

namespace Sys2Proof.Machine

/-- `as8(X << Y8)` (43_logical_shift.md R136). -/
def shiftLeft (x y8 : Byte) : Byte := x <<< y8.toNat

/-- `X >> Y8`, zeros enter at bit 7 (43_logical_shift.md R137). -/
def shiftRight (x y8 : Byte) : Byte := x >>> y8.toNat

/-- Copies of bit 7 enter at bit 7 (43_logical_shift.md R138). -/
def shiftRightSigned (x y8 : Byte) : Byte := x.sshiftRight y8.toNat

/-- AND (43_logical_shift.md R132). -/
def execAnd (d a : Reg) (y : Src2) (s : State) : Result :=
  .next (s.logical d (s.operandX a &&& s.operandY8 y))

/-- OR (43_logical_shift.md R133). -/
def execOr (d a : Reg) (y : Src2) (s : State) : Result :=
  .next (s.logical d (s.operandX a ||| s.operandY8 y))

/-- XOR (43_logical_shift.md R134). -/
def execXor (d a : Reg) (y : Src2) (s : State) : Result :=
  .next (s.logical d (s.operandX a ^^^ s.operandY8 y))

/-- NOT (43_logical_shift.md R135): of the second operand; `X` is not used. -/
def execNot (d : Reg) (y : Src2) (s : State) : Result :=
  .next (s.logical d (~~~ s.operandY8 y))

/-- LSL (43_logical_shift.md R136). -/
def execLsl (d a : Reg) (y : Src2) (s : State) : Result :=
  .next (s.logical d (shiftLeft (s.operandX a) (s.operandY8 y)))

/-- LSR (43_logical_shift.md R137). -/
def execLsr (d a : Reg) (y : Src2) (s : State) : Result :=
  .next (s.logical d (shiftRight (s.operandX a) (s.operandY8 y)))

/-- ASR (43_logical_shift.md R138). -/
def execAsr (d a : Reg) (y : Src2) (s : State) : Result :=
  .next (s.logical d (shiftRightSigned (s.operandX a) (s.operandY8 y)))

end Sys2Proof.Machine
end

