-- ==== Sys2Proof/Machine/Nop.lean ====
section
/-! DEFINITION. The no-op result shape (41_nop.md). -/

namespace Sys2Proof.Machine

/-- NOP (41_nop.md R100): "no state change beyond PC advance". -/
def execNop (s : State) : Result := .next s.advance

end Sys2Proof.Machine
end

