-- ==== Sys2Proof/Machine/Dispatch.lean ====
section
/-! DEFINITION. Dispatch on the instruction to its meaning (40_cycle.md R85, R89). -/

namespace Sys2Proof.Machine

def exec (i : Instr) (s : State) : Host.Outcome State Fault Refusal :=
  match i with
  | .nop => Sys2Proof.Machine.execNop s
  | .add d a y => Sys2Proof.Machine.execAdd d a y s
  | .sub d a y => Sys2Proof.Machine.execSub d a y s
  | .mul d a y => Sys2Proof.Machine.execMul d a y s
  | .div d a y => Sys2Proof.Machine.execDiv d a y s
  | .neg d y => Sys2Proof.Machine.execNeg d y s
  | .and d a y => Sys2Proof.Machine.execAnd d a y s
  | .or d a y => Sys2Proof.Machine.execOr d a y s
  | .xor d a y => Sys2Proof.Machine.execXor d a y s
  | .not d y => Sys2Proof.Machine.execNot d y s
  | .lsl d a y => Sys2Proof.Machine.execLsl d a y s
  | .lsr d a y => Sys2Proof.Machine.execLsr d a y s
  | .asr d a y => Sys2Proof.Machine.execAsr d a y s
  | .beq y => Sys2Proof.Machine.execBeq y s
  | .bneq y => Sys2Proof.Machine.execBneq y s
  | .blt y => Sys2Proof.Machine.execBlt y s
  | .ble y => Sys2Proof.Machine.execBle y s
  | .bgt y => Sys2Proof.Machine.execBgt y s
  | .bge y => Sys2Proof.Machine.execBge y s
  | .b y => Sys2Proof.Machine.execB y s
  | .bcs y => Sys2Proof.Machine.execBcs y s
  | .bcc y => Sys2Proof.Machine.execBcc y s
  | .bmi y => Sys2Proof.Machine.execBmi y s
  | .bpl y => Sys2Proof.Machine.execBpl y s
  | .bvs y => Sys2Proof.Machine.execBvs y s
  | .bvc y => Sys2Proof.Machine.execBvc y s
  | .bhi y => Sys2Proof.Machine.execBhi y s
  | .bls y => Sys2Proof.Machine.execBls y s
  | .ldr d y => Sys2Proof.Machine.execLdr d y s
  | .str d a y => Sys2Proof.Machine.execStr d a y s

end Sys2Proof.Machine
end

