-- ==== Sys2Proof/Machine/Cycle.lean ====
section
/-! DEFINITION. One cycle (40_cycle.md R81 to R89), the cycle under the step budget (R80, R87), and placing
a word where the next fetch reads. Step.lean names these. -/

namespace Sys2Proof.Machine

/-- Fetch (40_cycle.md R81): the word at `mem[pc]`, or AddressOutOfRange(`pc`). -/
def fetch (s : State) : Except Fault Word := s.loadWord (s.pc : Int)

/-- The fatal error a rejected word raises (40_cycle.md R82, 60_exceptions.md R201). -/
def decodeFault : DecodeError → Fault
  | .unknownOpcode op => .unknownOpcode op

/-- One whole cycle (40_cycle.md R89): fetch, decode, then the instruction's own effect. -/
def cycle (s : State) : Result :=
  match fetch s with
  | .error f => raise f
  | .ok w =>
    match decode s.cfg.opcodeMap w with
    | .error e => raise (decodeFault e)
    | .ok i => exec i s

/-- After a completed cycle the remaining budget is `k` (40_cycle.md R87); a fatal error passes. -/
def spend (k : Nat) : Result → Result
  | .next s => .next (s.setBudget (some k))
  | .fault f => .fault f
  | .refused r => .refused r

/-- One step of the machine. In a run with budget left: a cycle, and the budget decreases by 1
(40_cycle.md R80, R87). With the budget at 0: the run call returns, nothing is fetched and the budget is
discarded (R87, 10_state.md R33). With no run in progress: one cycle, as `run(1)` gives
(60_exceptions.md R215; DESIGN CHOICE, log 7). -/
def budgetedCycle (s : State) : Result :=
  match s.budget with
  | none => cycle s
  | some 0 => .next (s.setBudget none)
  | some (k + 1) => spend k (cycle s)

/-- `s` with a word at `mem[pc]`. With `pc` outside memory no word is fetched, and nothing is placed. -/
def placeAtPc (s : State) (w : Word) : State :=
  if s.pc < s.cfg.memSize then { s with mem := s.mem.write s.pc w } else s

end Sys2Proof.Machine
end

