-- ==== Sys2Proof/Machine/Step.lean ====
section
/-! DEFINITION. The step function, and placing an instruction where the next step fetches it. -/

namespace Sys2Proof.Machine

/-- One step (`budgetedCycle` says what it does in each case of the step budget). -/
def step (s : State) : Host.Outcome State Fault Refusal := budgetedCycle s

/-- `s` with an opcode-table word stored at `mem[pc]`, where step fetches its next instruction. It stands
for the image the host builds the engine with (70_reset_and_hazards.md R220, log 8). -/
def State.withFetchWord (s : State) (nbits w : Nat) : State := placeAtPc s (tableWord nbits w)

end Sys2Proof.Machine
end

