-- ==== Sys2Proof/Machine/Engine.lean ====
section
/-! DEFINITION. What the host can do (40_cycle.md R90 to R94): construct an engine, run it, read it back. -/

namespace Sys2Proof.Machine

/-- Construction (70_reset_and_hazards.md R220, R221): the image from address 0, the rest of memory 0, pc 0,
registers 0, flags false. An image longer than memory is refused and no engine is created. -/
def construct (cfg : Config) (image : List Word) : Option State :=
  if image.length ≤ cfg.memSize then
    some
      { cfg := cfg
        pc := 0
        regs := Vector.replicate 8 0
        flags := { z := false, c := false, n := false, v := false }
        mem := Memory.ofWordsAt 0 image
        budget := none }
  else none

/-- The error result of `run` (40_cycle.md R91): `fault` is its kind and detail. -/
structure EngineError where
  /-- The kind and its detail. -/
  fault : Fault
  /-- The cycles this call completed before the faulting one. -/
  cycle : Nat
  /-- The address of the faulting instruction. -/
  pc : Nat
deriving DecidableEq, Repr

/-- What a `run` call returns (40_cycle.md R90). -/
inductive RunResult where
  /-- All cycles asked for completed. -/
  | ok
  /-- A fatal error ended the run. -/
  | err (e : EngineError)
  /-- The model refused an instruction; it never does. -/
  | refused (r : Refusal)
deriving DecidableEq, Repr

/-- The loop of `run` with `k` cycles completed and up to that many more to go (40_cycle.md R90). The engine's
state is the one after the last completed cycle. -/
def runLoop (k : Nat) : Nat → State → State × RunResult
  | 0, s => (s, .ok)
  | more + 1, s =>
    match cycle s with
    | .next s' => runLoop (k + 1) more s'
    | .fault f => (s, .err { fault := f, cycle := k, pc := s.pc })
    | .refused r => (s, .refused r)

/-- `run(n)` (40_cycle.md R90): the engine's state after the call, and the result. -/
def run (n : Nat) (s : State) : State × RunResult := runLoop 0 n s

/-- The state at the start of a `run(n)` call: its budget is `n` (10_state.md R33). The steps of the machine
then do what `run` does, one cycle each. -/
def startRun (n : Nat) (s : State) : State := s.setBudget (some n)

/-- Host read-back of a memory word between runs (40_cycle.md R92); registers, flags and pc are fields. -/
def readBack (s : State) (a : Nat) : Option Word := if a < s.cfg.memSize then some (s.word a) else none

/-- The numeric codes of the errors (60_exceptions.md R200; the spec's decision D23, log 24). -/
def Fault.code : Fault → Nat
  | .unknownOpcode _ => 1
  | .divisionByZero => 2
  | .addressOutOfRange _ => 3

end Sys2Proof.Machine
end

