-- ==== Sys2Proof/Safety.lean ====
section
/-! DEFINITION. The terms in which claims speak: what each instruction is allowed to write, its own fault
check, invariants of the state, and sequences of completed cycles. Written from the spec's tables, not from
the meanings. -/

namespace Sys2Proof.Machine

/-! ## What an instruction writes and checks -/

/-- The register an instruction writes, from the "Writes" column of 10_state.md R22. -/
def Instr.resultReg? : Instr → Option Reg
  | .add d _ _ | .sub d _ _ | .mul d _ _ | .div d _ _ | .neg d _ => some d
  | .and d _ _ | .or d _ _ | .xor d _ _ | .not d _ | .lsl d _ _ | .lsr d _ _ | .asr d _ _ => some d
  | .ldr d _ => some d
  | .nop | .str _ _ _ => none
  | .beq _ | .bneq _ | .blt _ | .ble _ | .bgt _ | .bge _ | .b _ => none
  | .bcs _ | .bcc _ | .bmi _ | .bpl _ | .bvs _ | .bvc _ | .bhi _ | .bls _ => none

/-- The instructions that write `N`, `C` and `V` (10_state.md R29). -/
def Instr.isArithmetic : Instr → Bool
  | .add _ _ _ | .sub _ _ _ | .mul _ _ _ | .div _ _ _ | .neg _ _ => true
  | .and _ _ _ | .or _ _ _ | .xor _ _ _ | .not _ _ | .lsl _ _ _ | .lsr _ _ _ | .asr _ _ _ => false
  | .nop | .ldr _ _ | .str _ _ _ => false
  | .beq _ | .bneq _ | .blt _ | .ble _ | .bgt _ | .bge _ | .b _ => false
  | .bcs _ | .bcc _ | .bmi _ | .bpl _ | .bvs _ | .bvc _ | .bhi _ | .bls _ => false

/-- The word address an instruction stores to: STR's operand `Y`, computed as its meaning computes it
(45_memory.md R180); no other instruction stores (20_memory.md R43). -/
def Instr.storeAddress? (s : State) : Instr → Option Int
  | .str _ _ y => some (s.operandY y)
  | .add _ _ _ | .sub _ _ _ | .mul _ _ _ | .div _ _ _ | .neg _ _ => none
  | .and _ _ _ | .or _ _ _ | .xor _ _ _ | .not _ _ | .lsl _ _ _ | .lsr _ _ _ | .asr _ _ _ => none
  | .nop | .ldr _ _ => none
  | .beq _ | .bneq _ | .blt _ | .ble _ | .bgt _ | .bge _ | .b _ => none
  | .bcs _ | .bcc _ | .bmi _ | .bpl _ | .bvs _ | .bvc _ | .bhi _ | .bls _ => none

/-- A branch's displacement operand with the condition of its row in the table of 44_branch.md R152. -/
def Instr.branchRow? (f : Flags) : Instr → Option (Src2 × Bool)
  | .beq y => some (y, f.z)
  | .bneq y => some (y, !f.z)
  | .blt y => some (y, f.n != f.v)
  | .ble y => some (y, !f.z && (f.n == f.v))
  | .bgt y => some (y, f.z && (f.n == f.v))
  | .bge y => some (y, f.n == f.v)
  | .b y => some (y, true)
  | .bcs y => some (y, f.c)
  | .bcc y => some (y, !f.c)
  | .bmi y => some (y, f.n)
  | .bpl y => some (y, !f.n)
  | .bvs y => some (y, f.v)
  | .bvc y => some (y, !f.v)
  | .bhi y => some (y, f.c && !f.z)
  | .bls y => some (y, !(f.c && !f.z))
  | .add _ _ _ | .sub _ _ _ | .mul _ _ _ | .div _ _ _ | .neg _ _ => none
  | .and _ _ _ | .or _ _ _ | .xor _ _ _ | .not _ _ | .lsl _ _ _ | .lsr _ _ _ | .asr _ _ _ => none
  | .nop | .ldr _ _ | .str _ _ _ => none

/-- AddressOutOfRange of an address outside `0..MEM_SIZE - 1` (20_memory.md R45). -/
def State.rangeCheck (s : State) (a : Int) : Option Fault :=
  if s.inRange a then none else some (.addressOutOfRange a)

/-- The one check of its own an instruction has, if any, and the error it raises (60_exceptions.md R206,
point 3): DivisionByZero for DIV, the address for LDR and STR, the target for a taken branch. -/
def Instr.ownFault? (i : Instr) (s : State) : Option Fault :=
  match i with
  | .div _ _ y => if (s.operandY8 y).toNat = 0 then some .divisionByZero else none
  | .ldr _ y | .str _ _ y => s.rangeCheck (s.operandY y)
  | .beq y | .bneq y | .blt y | .ble y | .bgt y | .bge y | .b y | .bcs y | .bcc y | .bmi y | .bpl y
  | .bvs y | .bvc y | .bhi y | .bls y =>
    if (Instr.branchRow? s.flags i).any Prod.snd then s.rangeCheck ((s.pc : Int) + 1 + s.operandY y) else none
  | .nop | .add _ _ _ | .sub _ _ _ | .mul _ _ _ | .neg _ _ => none
  | .and _ _ _ | .or _ _ _ | .xor _ _ _ | .not _ _ | .lsl _ _ _ | .lsr _ _ _ | .asr _ _ _ => none

/-! ## Shapes of effects -/

/-- `t` is `s` with register `d` written and pc advanced by 1: every other register, every memory word, the
parameters and the step budget are as before. Nothing is said of the flags or of `d`'s new value. -/
def OnlyRegAndFlags (d : Reg) (s t : State) : Prop :=
  (∀ r, r ≠ d → t.reg r = s.reg r) ∧ (∀ a, t.word a = s.word a) ∧ t.pc = s.pc + 1 ∧
    t.cfg = s.cfg ∧ t.budget = s.budget

/-- `i` completes from `s` in the arithmetic result shape with result `r` in `d` and carry `c`
(42_arithmetic.md R105 to R109), changing nothing else. -/
def ArithmeticCompletes (i : Instr) (s : State) (d : Reg) (r : Byte) (c : Bool) : Prop :=
  ∃ t, exec i s = .next t ∧ t.reg d = r ∧ t.flags.z = decide (r.toNat = 0) ∧
    t.flags.n = decide (128 ≤ r.toNat) ∧ t.flags.c = c ∧
    t.flags.v = (decide (128 ≤ r.toNat) != decide (r.toNat = 0)) ∧ OnlyRegAndFlags d s t

/-- `i` completes from `s` with the result `r` in `d`, Zero set from it and the other flags kept
(43_logical_shift.md R130, 45_memory.md R181), changing nothing else. -/
def LogicalCompletes (i : Instr) (s : State) (d : Reg) (r : Nat) : Prop :=
  ∃ t, exec i s = .next t ∧ (t.reg d).toNat = r ∧ t.flags.z = decide (r = 0) ∧
    t.flags.c = s.flags.c ∧ t.flags.n = s.flags.n ∧ t.flags.v = s.flags.v ∧ OnlyRegAndFlags d s t

/-- A branch with the condition `cond` (44_branch.md R150, R151): not taken it completes at `pc + 1`
whatever its target; taken it completes at the target `pc + 1 + Y` when that is in range, and otherwise
faults with it. Nothing but the pc changes. -/
def BranchesOn (branchOf : Src2 → Instr) (cond : Flags → Bool) : Prop :=
  ∀ (y : Src2) (s : State),
    (cond s.flags = false → exec (branchOf y) s = .next { s with pc := s.pc + 1 }) ∧
    (cond s.flags = true → s.inRange ((s.pc : Int) + 1 + s.operandY y) →
      exec (branchOf y) s = .next { s with pc := ((s.pc : Int) + 1 + s.operandY y).toNat }) ∧
    (cond s.flags = true → ¬ s.inRange ((s.pc : Int) + 1 + s.operandY y) →
      exec (branchOf y) s = .fault (.addressOutOfRange ((s.pc : Int) + 1 + s.operandY y)))

/-- Wherever a branch with a displacement other than 0 completes, it has left `pc + 1` exactly when `cond`
holds of the flags, and wherever it faults `cond` holds (44_branch.md R152). -/
def TakenExactlyWhen (branchOf : Src2 → Instr) (cond : Flags → Bool) : Prop :=
  (∀ (y : Src2) (s t : State), s.operandY y ≠ 0 → exec (branchOf y) s = .next t →
    (t.pc ≠ s.pc + 1 ↔ cond s.flags = true)) ∧
  (∀ (y : Src2) (s : State) (f : Fault), exec (branchOf y) s = .fault f → cond s.flags = true)

/-! ## Invariants -/

/-- The memory is in canonical form and lists no word outside `0..MEM_SIZE - 1`. -/
def State.MemoryOk (s : State) : Prop := s.mem.wf ∧ ∀ p ∈ s.mem, p.1 < s.cfg.memSize

/-- Between cycles the pc is in `0..MEM_SIZE` (10_state.md R24, R26). -/
def State.PcOk (s : State) : Prop := s.pc ≤ s.cfg.memSize

/-- `N` implies `V` (42_arithmetic.md R116). -/
def State.FlagsOk (s : State) : Prop := s.flags.n = true → s.flags.v = true

/-- All of them, and the opcode map one-to-one (00_scope.md R7). -/
def State.Inv (s : State) : Prop := s.cfg.wf = true ∧ s.MemoryOk ∧ s.PcOk ∧ s.FlagsOk

/-! ## Completed cycles and runs -/

/-- `n` cycles complete from `s` and lead to the state `t`. -/
inductive Completes : Nat → State → State → Prop where
  | none (s : State) : Completes 0 s s
  | more (n : Nat) (s t u : State) : cycle s = .next t → Completes n t u → Completes (n + 1) s u

/-- The cycle that starts in `s` is an STR to the word `a`. -/
def StoresTo (s : State) (a : Nat) : Prop :=
  ∃ d r y, decode s.cfg.opcodeMap (s.word s.pc) = .ok (.str d r y) ∧ s.operandY y = (a : Int)

/-- `n` cycles complete from `s` and lead to `t`, none of them an STR to the word `a`. -/
inductive CompletesNotStoring (a : Nat) : Nat → State → State → Prop where
  | none (s : State) : CompletesNotStoring a 0 s s
  | more (n : Nat) (s t u : State) : ¬ StoresTo s a → cycle s = .next t →
      CompletesNotStoring a n t u → CompletesNotStoring a (n + 1) s u

/-- A safe run: `n` cycles from `s` end in no fatal error. -/
def SafeFor (n : Nat) (s : State) : Prop := (run n s).2 = .ok

end Sys2Proof.Machine
end

