-- ==== Sys2Proof/Certificates/Slice0/Obligations.lean ====
section
/-! DEFINITION. The statements for the provers, in the order of the spec: encoding, the cycle, construction,
operands, each family's results and frames, whole-machine rules, invariants, runs. A docstring names the
decision (92_eei_decisions.md) or log entry a clause rests on where the spec itself marks it as its own choice. -/

open Sys2Proof Sys2Proof.Machine

/-! ## Encoding -/

/-- Decoding the encoding of any well-formed instruction, under any one-to-one opcode map, gives the
instruction back (30_encoding.md sections 1, 2 and 4). -/
def Obligations.DecodeOfEncodeIsTheInstruction : Prop :=
  ∀ (map : OpcodeMap) (i : Instr), map.wf = true → i.wf = true → decode map (encode map i) = .ok i

/-- A word that decodes to `i` is `i`'s encoding but for the bits `i` does not use, and `i` is well formed. That
bit 3 of the register form and the fields of 30_encoding.md R61 are ignored are decisions D19 and D8 (log 10). -/
def Obligations.EncodeOfDecodeKeepsTheUsedBits : Prop :=
  ∀ (map : OpcodeMap) (w : Word) (i : Instr), decode map w = .ok i →
    i.wf = true ∧ encode map i = w &&& i.usedBits

/-- Changing only bits an instruction does not use leaves it the same instruction (decisions D19, D8; log 10). -/
def Obligations.UnusedBitsDoNotMatter : Prop :=
  ∀ (map : OpcodeMap) (w w' : Word) (i : Instr), decode map w = .ok i →
    w' &&& i.usedBits = w &&& i.usedBits → decode map w' = .ok i

/-- Under any one-to-one map the opcode field alone says which instruction a word is, and an unmapped opcode is
rejected with its value (30_encoding.md section 2; the map is the parameter of decision D1). -/
def Obligations.OpcodeFieldAloneSelectsTheInstruction : Prop :=
  ∀ (map : OpcodeMap) (w : Word), map.wf = true →
    (∀ m : Mnemonic, (∃ i, decode map w = .ok i ∧ i.mnemonic = m) ↔ map.opcodeOf m = w.extractLsb' 11 5) ∧
    ((∀ m : Mnemonic, map.opcodeOf m ≠ w.extractLsb' 11 5) ↔
      decode map w = .error (.unknownOpcode (w.extractLsb' 11 5)))

/-- Of the 32 opcode values exactly two are unmapped under any one-to-one map (30_encoding.md section 2;
decision D1). -/
def Obligations.ExactlyTwoOpcodesAreUnmapped : Prop :=
  ∀ map : OpcodeMap, map.wf = true →
    ((List.range 32).filter fun k => (map.mnemonicOf? (BitVec.ofNat 5 k)).isNone).length = 2

/-- 30_encoding.md R58: in the immediate form the operand is the src2-field sign-extended, which is bits 3:0
minus 16; over all words exactly -16..-1 occur. -/
def Obligations.ImmediateIsBitsThreeToZeroMinusSixteen : Prop :=
  (∀ (map : OpcodeMap) (w : Word) (i : Instr) (y : Src2), decode map w = .ok i → i.src2? = some y →
    w.getLsbD 4 = true →
      y = .imm ((w.extractLsb' 0 5).toInt) ∧ y = .imm (((w.extractLsb' 0 4).toNat : Int) - 16)) ∧
  (∀ (map : OpcodeMap), map.wf = true → ∀ k : Int,
    (∃ w i, decode map w = .ok i ∧ i.src2? = some (.imm k)) ↔ -16 ≤ k ∧ k ≤ -1)

/-- 30_encoding.md R56: each field is the unsigned value of its bits, and bit 4 is both the imm-flag and the top
bit of the src2-field. -/
def Obligations.FieldsLieWhereTheLayoutSays : Prop :=
  ∀ w : Word,
    (opcodeField w).toNat = w.toNat / 2048 ∧ (destField w).val = w.toNat / 256 % 8 ∧
    (src1Field w).val = w.toNat / 32 % 8 ∧ (immFlag w = true ↔ w.toNat / 16 % 2 = 1) ∧
    (src2Field w).toNat = w.toNat % 32 ∧ (src2Field w).getLsbD 4 = immFlag w

/-- Words of 95_test_vectors.md section L2.1, under the default map (the spec's own choice D1, log 1), decode to
the instructions that section gives, and the two unmapped opcodes are rejected. -/
def Obligations.SpecWordsDecodeToTheirInstructions : Prop :=
  decode defaultOpcodeMap 0x0000 = .ok .nop ∧
  decode defaultOpcodeMap 0x08C7 = .ok (.add 0 6 (.reg 7)) ∧
  decode defaultOpcodeMap 0x0A5F = .ok (.add 2 2 (.imm (-1))) ∧
  decode defaultOpcodeMap 0x2918 = .ok (.neg 1 (.imm (-8))) ∧
  decode defaultOpcodeMap 0x3230 = .ok (.and 2 1 (.imm (-16))) ∧
  decode defaultOpcodeMap 0x6461 = .ok (.asr 4 3 (.reg 1)) ∧
  decode defaultOpcodeMap 0x701D = .ok (.bneq (.imm (-3))) ∧
  decode defaultOpcodeMap 0xD803 = .ok (.bls (.reg 3)) ∧
  decode defaultOpcodeMap 0xE601 = .ok (.ldr 6 (.reg 1)) ∧
  decode defaultOpcodeMap 0xE841 = .ok (.str 0 2 (.reg 1)) ∧
  decode defaultOpcodeMap 0xF000 = .error (.unknownOpcode 30) ∧
  decode defaultOpcodeMap 0xF800 = .error (.unknownOpcode 31)

/-! ## The cycle -/

/-- A step whose pc is in memory, with budget left or no run in progress, is the meaning of the instruction the
word at pc decodes to; in a run it also takes 1 from the budget (40_cycle.md section 2; that a step outside a run is one
cycle is the model's choice, log 7). -/
def Obligations.StepRunsTheDecodedInstruction : Prop :=
  ∀ (s : State) (i : Instr), s.pc < s.cfg.memSize → decode s.cfg.opcodeMap (s.word s.pc) = .ok i →
    (s.budget = none → step s = exec i s) ∧
    (∀ k t, s.budget = some (k + 1) → exec i s = .next t → step s = .next { t with budget := some k }) ∧
    (∀ k f, s.budget = some (k + 1) → exec i s = .fault f → step s = .fault f)

/-- 40_cycle.md R81: with `pc >= MEM_SIZE` the cycle raises AddressOutOfRange(`pc`) and does nothing else;
otherwise it reads the word at `mem[pc]`. -/
def Obligations.FetchOutsideMemoryFaults : Prop :=
  ∀ s : State, s.budget ≠ some 0 →
    (s.cfg.memSize ≤ s.pc → step s = .fault (.addressOutOfRange (s.pc : Int)) ∧ ∀ n, (run (n + 1) s).1 = s) ∧
    (s.pc < s.cfg.memSize → fetch s = .ok (s.word s.pc))

/-- 40_cycle.md R82: the fetched word is decoded into its fields; if `OPCODE_MAP` maps no instruction to the
opcode the cycle raises UnknownOpcode(opcode). -/
def Obligations.UnmappedOpcodeFaults : Prop :=
  ∀ s : State, s.budget ≠ some 0 → s.pc < s.cfg.memSize →
    ((∀ m, s.cfg.opcodeMap.opcodeOf m ≠ opcodeField (s.word s.pc)) →
      step s = .fault (.unknownOpcode (opcodeField (s.word s.pc)))) ∧
    (∀ m, s.cfg.opcodeMap.wf = true → s.cfg.opcodeMap.opcodeOf m = opcodeField (s.word s.pc) →
      decode s.cfg.opcodeMap (s.word s.pc) =
        .ok (m.withOperands (destField (s.word s.pc)) (src1Field (s.word s.pc)) (src2Of (s.word s.pc))))

/-- Each completed cycle takes 1 from the budget, a fatal error ends the run, and at 0 the run call returns without
fetching again (40_cycle.md section 2, R87). That the return is a step of its own, which answers next with the budget
`none`, is the model's choice (log 7); that the budget is discarded there is 10_state.md R33 (section 7). -/
def Obligations.BudgetCountsCompletedCycles : Prop :=
  ∀ s : State,
    (∀ k t, s.budget = some (k + 1) → cycle s = .next t → ∃ u, step s = .next u ∧ u.budget = some k ∧
      u.cfg = t.cfg ∧ u.pc = t.pc ∧ u.regs = t.regs ∧ u.flags = t.flags ∧ u.mem = t.mem) ∧
    (∀ k f, s.budget = some (k + 1) → cycle s = .fault f → step s = .fault f) ∧
    (s.budget = some 0 → step s = .next { s with budget := none })

/-- A cycle's error is exactly the first of: fetch out of range, unmapped opcode, the instruction's own check
(60_exceptions.md section 1, R206, which the spec derives; decisions D11, D12, D13). -/
def Obligations.StepFaultsExactlyAtTheOrderedChecks : Prop :=
  ∀ (s : State) (f : Fault), s.budget ≠ some 0 →
    (step s = .fault f ↔
      (s.cfg.memSize ≤ s.pc ∧ f = .addressOutOfRange (s.pc : Int)) ∨
      (s.pc < s.cfg.memSize ∧
        ((∃ op, decode s.cfg.opcodeMap (s.word s.pc) = .error (.unknownOpcode op) ∧ f = .unknownOpcode op) ∨
         (∃ i, decode s.cfg.opcodeMap (s.word s.pc) = .ok i ∧ Instr.ownFault? i s = some f))))

/-- No step of any state is refused: the model has a meaning for every instruction of the map
(30_encoding.md section 2). -/
def Obligations.StepNeverRefuses : Prop :=
  ∀ (s : State) (r : Refusal), step s ≠ .refused r

/-! ## Construction -/

/-- Construction with any parameters and image: the image from address 0 and zeros after it, pc 0, registers 0,
flags false, no run in progress; a longer image is refused (70_reset_and_hazards.md section 1; the fill and the refusal
are decision D15, log 6). -/
def Obligations.ConstructionGivesTheCreationState : Prop :=
  ∀ (cfg : Config) (image : List Word),
    (image.length ≤ cfg.memSize → ∃ s, construct cfg image = some s ∧ s.cfg = cfg ∧ s.pc = 0 ∧
      (∀ r, s.reg r = 0) ∧ s.flags = { z := false, c := false, n := false, v := false } ∧ s.budget = none ∧
      (∀ a, s.word a = image.getD a 0)) ∧
    (cfg.memSize < image.length → construct cfg image = none)

/-- 10_state.md R23: every register is 0 when the engine is created, with any image and in State.reset. -/
def Obligations.EveryRegisterIsZeroAtCreation : Prop :=
  (∀ (cfg : Config) (image : List Word) (s : State), construct cfg image = some s → ∀ r, s.reg r = 0) ∧
  (∀ r, State.reset.reg r = 0) ∧ construct Config.reference [] = some State.reset

/-! ## Operands -/

/-- The second operand: a register's unsigned value, or the signed immediate; the ALU sees it modulo 256
(30_encoding.md section 3, 40_cycle.md section 2; decision D4, log 15). -/
def Obligations.SecondOperandAndItsBytePattern : Prop :=
  ∀ s : State,
    (∀ r, s.operandY (.reg r) = ((s.reg r).toNat : Int) ∧ s.operandY8 (.reg r) = s.reg r) ∧
    (∀ k : Int, (Src2.imm k).wf = true →
      s.operandY (.imm k) = k ∧ ((s.operandY8 (.imm k)).toNat : Int) = k + 256)

/-! ## No-op and arithmetic -/

/-- NOP completes from every state and only advances the pc (41_nop.md; its opcode is decision D1). -/
def Obligations.NopOnlyAdvancesThePc : Prop :=
  ∀ s : State, exec .nop s = .next { s with pc := s.pc + 1 }

/-- ADD (42_arithmetic.md section 2; decisions D3, D4; log 14, 15). -/
def Obligations.AddWritesSumAndFlags : Prop :=
  ∀ (d a : Reg) (y : Src2) (s : State),
    ArithmeticCompletes (.add d a y) s d (s.reg a + s.operandY8 y)
      (decide (255 < (s.reg a).toNat + (s.operandY8 y).toNat))

/-- SUB, with the borrow in C (42_arithmetic.md section 2; decisions D3, D4; log 14, 15). -/
def Obligations.SubWritesDifferenceAndFlags : Prop :=
  ∀ (d a : Reg) (y : Src2) (s : State),
    ArithmeticCompletes (.sub d a y) s d (s.reg a - s.operandY8 y)
      (decide ((s.reg a).toNat < (s.operandY8 y).toNat))

/-- MUL (42_arithmetic.md section 2; decisions D3, D4, D5; log 14, 15, 16). -/
def Obligations.MulWritesLowByteAndFlags : Prop :=
  ∀ (d a : Reg) (y : Src2) (s : State),
    ArithmeticCompletes (.mul d a y) s d (s.reg a * s.operandY8 y)
      (decide (255 < (s.reg a).toNat * (s.operandY8 y).toNat))

/-- DIV: the unsigned quotient with C false, or DivisionByZero (42_arithmetic.md section 2; decisions D3 to D6;
log 14 to 17). -/
def Obligations.DivWritesQuotientOrFaults : Prop :=
  ∀ (d a : Reg) (y : Src2) (s : State),
    (s.operandY8 y ≠ 0 → ArithmeticCompletes (.div d a y) s d (s.reg a / s.operandY8 y) false) ∧
    (s.operandY8 y = 0 → exec (.div d a y) s = .fault .divisionByZero)

/-- NEG (42_arithmetic.md section 2; decisions D3, D4, D5; log 14, 15, 16). -/
def Obligations.NegWritesNegationAndFlags : Prop :=
  ∀ (d : Reg) (y : Src2) (s : State),
    ArithmeticCompletes (.neg d y) s d (-(s.operandY8 y)) (decide (s.operandY8 y ≠ 0))

/-- The overflow rule and what follows from it after every arithmetic instruction (42_arithmetic.md section 1; the
Negative flag in it is decision D3, log 14). -/
def Obligations.OverflowIsNegativeDiffersFromZero : Prop :=
  ∀ (i : Instr) (d : Reg) (s t : State), Instr.isArithmetic i = true → Instr.resultReg? i = some d →
    exec i s = .next t →
      t.flags.v = (t.flags.n != t.flags.z) ∧ t.flags.v = (t.flags.n || t.flags.z) ∧
      (t.flags.v = true ↔ t.reg d = 0 ∨ 128 ≤ (t.reg d).toNat)

/-- 60_exceptions.md R202: DIV with `y = 0` raises DivisionByZero, no other instruction does, and the run ends with
the state, the destination register included, as before the DIV. -/
def Obligations.DivisionByZeroIsRaisedOnlyByDivByZero : Prop :=
  (∀ (i : Instr) (s : State), i.wf = true →
    (exec i s = .fault .divisionByZero ↔ ∃ d a y, i = .div d a y ∧ s.operandY y = 0)) ∧
  (∀ (n : Nat) (s : State) (d a : Reg) (y : Src2), s.pc < s.cfg.memSize →
    decode s.cfg.opcodeMap (s.word s.pc) = .ok (.div d a y) → s.operandY y = 0 →
      (run (n + 1) s).1 = s ∧ ∃ e, (run (n + 1) s).2 = .err e ∧ e.fault = .divisionByZero)

/-! ## Logical and shift -/

/-- AND, OR, XOR and NOT on X and Y8 (43_logical_shift.md section 2; decision D4, log 15). -/
def Obligations.BitwiseResults : Prop :=
  ∀ (d a : Reg) (y : Src2) (s : State),
    LogicalCompletes (.and d a y) s d ((s.reg a).toNat &&& (s.operandY8 y).toNat) ∧
    LogicalCompletes (.or d a y) s d ((s.reg a).toNat ||| (s.operandY8 y).toNat) ∧
    LogicalCompletes (.xor d a y) s d ((s.reg a).toNat ^^^ (s.operandY8 y).toNat) ∧
    LogicalCompletes (.not d y) s d (255 - (s.operandY8 y).toNat)

/-- LSL, LSR and ASR by the unmasked amount Y8 (43_logical_shift.md section 2; decisions D4, D7; log 15, 18). -/
def Obligations.ShiftResults : Prop :=
  ∀ (d a : Reg) (y : Src2) (s : State),
    LogicalCompletes (.lsl d a y) s d ((s.reg a).toNat * 2 ^ (s.operandY8 y).toNat % 256) ∧
    LogicalCompletes (.lsr d a y) s d ((s.reg a).toNat / 2 ^ (s.operandY8 y).toNat) ∧
    LogicalCompletes (.asr d a y) s d
      (((s.reg a).toInt / 2 ^ (min (s.operandY8 y).toNat 8)) % 256).toNat

/-- Every immediate shift moves every bit out: LSL and LSR give 0, ASR the sign (43_logical_shift.md section 1;
decisions D4, D7; log 15, 18). -/
def Obligations.ImmediateShiftsSaturate : Prop :=
  ∀ (d a : Reg) (k : Int) (s : State), (Src2.imm k).wf = true →
    LogicalCompletes (.lsl d a (.imm k)) s d 0 ∧ LogicalCompletes (.lsr d a (.imm k)) s d 0 ∧
    LogicalCompletes (.asr d a (.imm k)) s d (if (s.reg a).toNat < 128 then 0 else 255)

/-- 43_logical_shift.md R130: each logical or shift instruction raises nothing, writes its result to `x[dest]`
and Zero from that result, and leaves Carry, Negative and Overflow. -/
def Obligations.LogicalInstructionsWriteDestAndZeroOnly : Prop :=
  ∀ (d a : Reg) (y : Src2) (s : State),
    ∀ i ∈ [Instr.and d a y, .or d a y, .xor d a y, .not d y, .lsl d a y, .lsr d a y, .asr d a y],
      ∃ t, exec i s = .next t ∧ t.flags.z = (t.reg d == 0) ∧ t.flags.c = s.flags.c ∧
        t.flags.n = s.flags.n ∧ t.flags.v = s.flags.v ∧ OnlyRegAndFlags d s t

/-! ## Branches -/

/-- BEQ, BNEQ, BLT, BLE, BGT and BGE complete at the target or at `pc + 1` as their condition says, or fault with
the target (44_branch.md sections 1 and 2; decisions D11, D12, D13; log 21, 22, 23). -/
def Obligations.ComparisonBranchesGoWhereTheConditionSays : Prop :=
  BranchesOn .beq (fun f => f.z) ∧
  BranchesOn .bneq (fun f => !f.z) ∧
  BranchesOn .blt (fun f => f.n != f.v) ∧
  BranchesOn .ble (fun f => !f.z && (f.n == f.v)) ∧
  BranchesOn .bgt (fun f => f.z && (f.n == f.v)) ∧
  BranchesOn .bge (fun f => f.n == f.v)

/-- The same of B and the branches on one flag (44_branch.md sections 1 and 2; decisions D11, D12, D13;
log 21, 22, 23). -/
def Obligations.SingleFlagBranchesGoWhereTheConditionSays : Prop :=
  BranchesOn .b (fun _ => true) ∧
  BranchesOn .bcs (fun f => f.c) ∧
  BranchesOn .bcc (fun f => !f.c) ∧
  BranchesOn .bmi (fun f => f.n) ∧
  BranchesOn .bpl (fun f => !f.n) ∧
  BranchesOn .bvs (fun f => f.v) ∧
  BranchesOn .bvc (fun f => !f.v)

/-- The same of BHI and BLS (44_branch.md sections 1 and 2; decisions D11, D12, D13; log 21, 22, 23). -/
def Obligations.CarryZeroBranchesGoWhereTheConditionSays : Prop :=
  BranchesOn .bhi (fun f => f.c && !f.z) ∧
  BranchesOn .bls (fun f => !(f.c && !f.z))

/-- 44_branch.md R152: the condition evaluator's table, read off where each branch goes. -/
def Obligations.BranchesAreTakenExactlyOnTheTablesCondition : Prop :=
  TakenExactlyWhen .beq (fun f => f.z) ∧
  TakenExactlyWhen .bneq (fun f => !f.z) ∧
  TakenExactlyWhen .blt (fun f => f.n != f.v) ∧
  TakenExactlyWhen .ble (fun f => !f.z && (f.n == f.v)) ∧
  TakenExactlyWhen .bgt (fun f => f.z && (f.n == f.v)) ∧
  TakenExactlyWhen .bge (fun f => f.n == f.v) ∧
  TakenExactlyWhen .b (fun _ => true) ∧
  TakenExactlyWhen .bcs (fun f => f.c) ∧
  TakenExactlyWhen .bcc (fun f => !f.c) ∧
  TakenExactlyWhen .bmi (fun f => f.n) ∧
  TakenExactlyWhen .bpl (fun f => !f.n) ∧
  TakenExactlyWhen .bvs (fun f => f.v) ∧
  TakenExactlyWhen .bvc (fun f => !f.v) ∧
  TakenExactlyWhen .bhi (fun f => f.c && !f.z) ∧
  TakenExactlyWhen .bls (fun f => !(f.c && !f.z))

/-- 44_branch.md R153: a branch writes no register, flag or memory word; what it does depends on the flags and,
in the register form, on `x[src2[2:0]]` alone (beside its own address and `MEM_SIZE`); `dest` and `src1` are ignored. -/
def Obligations.BranchesReadFlagsAndWriteOnlyThePc : Prop :=
  ∀ (i : Instr) (y : Src2) (c : Bool) (s : State), Instr.branchRow? s.flags i = some (y, c) →
    (∀ t, exec i s = .next t → t = { s with pc := t.pc }) ∧
    (∀ s' : State, s'.flags = s.flags → s'.pc = s.pc → s'.cfg.memSize = s.cfg.memSize →
      (∀ r, y = .reg r → s'.reg r = s.reg r) →
        (∀ t, exec i s = .next t → exec i s' = .next { s' with pc := t.pc }) ∧
        (∀ f, exec i s = .fault f → exec i s' = .fault f)) ∧
    (∀ (map : OpcodeMap) (w w' : Word), decode map w = .ok i → w' &&& 0xF81F = w &&& 0xF81F →
      decode map w' = .ok i)

/-- Straight after an arithmetic instruction: BGT is not taken, BLT exactly on a zero result, BGE and BLE exactly on a
non-zero one, BVC exactly on a result in 1..127 and BVS on the others (44_branch.md section 3; decision D3, log 14). -/
def Obligations.SignedBranchesAfterArithmetic : Prop :=
  ∀ (i : Instr) (d : Reg) (s t : State), Instr.isArithmetic i = true → Instr.resultReg? i = some d →
    exec i s = .next t → ∀ y : Src2,
      exec (.bgt y) t = .next { t with pc := t.pc + 1 } ∧
      (t.reg d ≠ 0 → exec (.blt y) t = .next { t with pc := t.pc + 1 }) ∧
      (t.reg d = 0 → exec (.bge y) t = .next { t with pc := t.pc + 1 } ∧
        exec (.ble y) t = .next { t with pc := t.pc + 1 }) ∧
      (1 ≤ (t.reg d).toNat → (t.reg d).toNat < 128 → exec (.bvs y) t = .next { t with pc := t.pc + 1 }) ∧
      (t.reg d = 0 ∨ 128 ≤ (t.reg d).toNat → exec (.bvc y) t = .next { t with pc := t.pc + 1 }) ∧
      (t.inRange ((t.pc : Int) + 1 + t.operandY y) →
        (t.reg d = 0 → exec (.blt y) t = .next { t with pc := ((t.pc : Int) + 1 + t.operandY y).toNat }) ∧
        (t.reg d ≠ 0 →
          exec (.bge y) t = .next { t with pc := ((t.pc : Int) + 1 + t.operandY y).toNat } ∧
          exec (.ble y) t = .next { t with pc := ((t.pc : Int) + 1 + t.operandY y).toNat }) ∧
        (1 ≤ (t.reg d).toNat → (t.reg d).toNat < 128 →
          exec (.bvc y) t = .next { t with pc := ((t.pc : Int) + 1 + t.operandY y).toNat }) ∧
        (t.reg d = 0 ∨ 128 ≤ (t.reg d).toNat →
          exec (.bvs y) t = .next { t with pc := ((t.pc : Int) + 1 + t.operandY y).toNat }))

/-! ## Memory -/

/-- LDR loads bits 7:0 of the word at `Y` and writes Zero from them; out of range it faults with `Y`
(45_memory.md sections 1 and 2; decisions D10, D13; log 20, 23). -/
def Obligations.LdrLoadsTheLowByte : Prop :=
  ∀ (d : Reg) (y : Src2) (s : State),
    (s.inRange (s.operandY y) →
      LogicalCompletes (.ldr d y) s d ((s.word (s.operandY y).toNat).toNat % 256)) ∧
    (¬ s.inRange (s.operandY y) → exec (.ldr d y) s = .fault (.addressOutOfRange (s.operandY y)))

/-- STR replaces the word at `Y` by the zero-extended data register that `STR_DATA_FIELD` names, and changes no other
word, no register and no flag; out of range it faults with `Y` (45_memory.md sections 1 and 2; decisions D8, D9,
D10, D13; log 3, 19, 20, 23). -/
def Obligations.StrStoresTheDataRegister : Prop :=
  ∀ (d a : Reg) (y : Src2) (s : State), s.mem.wf →
    (s.inRange (s.operandY y) → ∃ t, exec (.str d a y) s = .next t ∧
      (s.cfg.strDataField = .src1 → (t.word (s.operandY y).toNat).toNat = (s.reg a).toNat) ∧
      (s.cfg.strDataField = .dest → (t.word (s.operandY y).toNat).toNat = (s.reg d).toNat) ∧
      (s.cfg.strDataField = .src2 → ∀ r, y = .reg r →
        (t.word (s.operandY y).toNat).toNat = (s.reg r).toNat) ∧
      (∀ b, b ≠ (s.operandY y).toNat → t.word b = s.word b) ∧
      (∀ r, t.reg r = s.reg r) ∧ t.flags = s.flags ∧ t.pc = s.pc + 1 ∧ t.cfg = s.cfg ∧ t.budget = s.budget) ∧
    (¬ s.inRange (s.operandY y) → exec (.str d a y) s = .fault (.addressOutOfRange (s.operandY y)))

/-- An LDR or STR with an immediate always faults with it: no immediate is an address (20_memory.md section 2;
decision D10, log 20). -/
def Obligations.ImmediateAddressAlwaysFaults : Prop :=
  ∀ (d a : Reg) (k : Int) (s : State), (Src2.imm k).wf = true →
    exec (.ldr d (.imm k)) s = .fault (.addressOutOfRange k) ∧
    exec (.str d a (.imm k)) s = .fault (.addressOutOfRange k)

/-- A register stored at an address and loaded from it later, with that word and `MEM_SIZE` as the store left them,
comes back in the register loaded (45_memory.md section 2, R184, which the spec derives; decisions D8, D9; log 3, 19). -/
def Obligations.StoreThenLoadReturnsTheRegister : Prop :=
  ∀ (d a r : Reg) (ya yb : Src2) (s t v : State), s.mem.wf → exec (.str d a ya) s = .next t →
    v.word (s.operandY ya).toNat = t.word (s.operandY ya).toNat → v.cfg = t.cfg →
    v.operandY yb = s.operandY ya →
      ∃ u, exec (.ldr r yb) v = .next u ∧ u.reg r = s.reg (strDataReg s.cfg.strDataField d a ya)

/-- A word STR writes at `pc + 1` is the very next word fetched (20_memory.md section 3, R52, which the spec derives;
decisions D8, D9; log 3, 19). -/
def Obligations.StoredWordIsTheNextOneFetched : Prop :=
  ∀ (s t : State) (d a : Reg) (y : Src2), s.mem.wf → s.budget ≠ some 0 → s.pc < s.cfg.memSize →
    decode s.cfg.opcodeMap (s.word s.pc) = .ok (.str d a y) → s.operandY y = (s.pc : Int) + 1 →
    step s = .next t →
      t.pc = s.pc + 1 ∧ fetch t = .ok ((s.reg (strDataReg s.cfg.strDataField d a y)).setWidth 16)

/-- Memory order is program order: a word holds what the last completed STR to it wrote, or its creation value if
none has completed (20_memory.md section 3; the zero fill is D15, the upper byte D9; log 6, 19). -/
def Obligations.AWordHoldsTheLastStoreOrItsCreationValue : Prop :=
  ∀ (a n : Nat) (u : State),
    (∀ (s t : State) (d r : Reg) (y : Src2), s.mem.wf →
      decode s.cfg.opcodeMap (s.word s.pc) = .ok (.str d r y) → s.operandY y = (a : Int) →
      cycle s = .next t → CompletesNotStoring a n t u →
        u.loadWord (a : Int) = .ok ((s.reg (strDataReg s.cfg.strDataField d r y)).setWidth 16)) ∧
    (∀ (cfg : Config) (image : List Word) (s : State), construct cfg image = some s → a < cfg.memSize →
      CompletesNotStoring a n s u → u.loadWord (a : Int) = .ok (image.getD a 0))

/-! ## Whole-machine rules -/

/-- 42_arithmetic.md R106: every instruction that defines Zero leaves it true exactly when the 8-bit value it wrote to
its register is 0. -/
def Obligations.ZeroFlagIsResultIsZero : Prop :=
  ∀ (i : Instr) (d : Reg) (s t : State), Instr.resultReg? i = some d → exec i s = .next t →
    t.flags.z = (t.reg d == 0)

/-- 40_cycle.md R88, for all 30 instructions: registers, flags and memory words the instruction's rule does not
name keep their value, and so do the parameters and the step budget. -/
def Obligations.UnnamedStateKeepsItsValue : Prop :=
  ∀ (i : Instr) (s t : State), exec i s = .next t →
    (∀ r, Instr.resultReg? i ≠ some r → t.reg r = s.reg r) ∧
    (Instr.resultReg? i = none → t.flags.z = s.flags.z) ∧
    (Instr.isArithmetic i = false →
      t.flags.c = s.flags.c ∧ t.flags.n = s.flags.n ∧ t.flags.v = s.flags.v) ∧
    (∀ a : Nat, Instr.storeAddress? s i ≠ some (a : Int) → t.word a = s.word a) ∧
    t.cfg = s.cfg ∧ t.budget = s.budget

/-! ## Invariants -/

/-- Every step keeps the memory canonical and inside `0..MEM_SIZE - 1` (20_memory.md section 2; the canonical form is
the model's own, log 5). -/
def Obligations.StepKeepsMemoryCanonicalAndInside : Prop :=
  ∀ s t : State, s.MemoryOk → step s = .next t → t.MemoryOk

/-- Every step keeps the pc in `0..MEM_SIZE` (10_state.md section 3; decisions D12, D21; log 22, 24). -/
def Obligations.StepKeepsThePcInsideMemory : Prop :=
  ∀ s t : State, s.PcOk → step s = .next t → t.PcOk

/-- Every step keeps "N implies V" (42_arithmetic.md section 3, R116, which the spec derives; decision D3, log 14). -/
def Obligations.StepKeepsNegativeImpliesOverflow : Prop :=
  ∀ s t : State, s.FlagsOk → step s = .next t → t.FlagsOk

/-- No step changes a parameter (10_state.md section 8; that State holds them is log 4). -/
def Obligations.StepKeepsTheParameters : Prop :=
  ∀ s t : State, step s = .next t → t.cfg = s.cfg

/-- State.reset meets the invariants (its parameter values are the model's choice, log 1, 2, 3). -/
def Obligations.ResetMeetsTheInvariants : Prop := State.reset.Inv

/-- Every engine that can be constructed meets the invariants after any `run(n)`, whether it completed or ended in a
fatal error (42_arithmetic.md section 3, 10_state.md section 3; decisions D3, D12, D13; log 5, 14, 22, 23). -/
def Obligations.EveryReachableStateMeetsTheInvariants : Prop :=
  ∀ (cfg : Config) (image : List Word) (s : State) (n : Nat), cfg.wf = true →
    construct cfg image = some s → (run n s).1.Inv

/-! ## Runs -/

/-- 40_cycle.md R90: `run(n)` returns Ok after exactly n completed cycles; it returns an error after k < n completed
cycles exactly when the next one is fatal, with that error, k, and the pc it left. -/
def Obligations.RunExecutesCyclesUntilAFatalError : Prop :=
  ∀ (n : Nat) (s t : State),
    (run n s = (t, .ok) ↔ Completes n s t) ∧
    (∀ e : EngineError, run n s = (t, .err e) ↔
      e.cycle < n ∧ Completes e.cycle s t ∧ cycle t = .fault e.fault ∧ e.pc = t.pc)

/-- `run(0)` changes nothing, and `run(a)` returning Ok followed by `run(b)` is `run(a + b)`, with the error's cycle
counted from the first call (40_cycle.md section 4, R93 and R94, which the spec derives; decision D14, log 23). -/
def Obligations.RunsCompose : Prop :=
  (∀ s : State, run 0 s = (s, .ok)) ∧
  (∀ (a b : Nat) (s t : State), run a s = (t, .ok) →
    (run (a + b) s).1 = (run b t).1 ∧
    ((run b t).2 = .ok → (run (a + b) s).2 = .ok) ∧
    (∀ e, (run b t).2 = .err e → (run (a + b) s).2 = .err { e with cycle := a + e.cycle }))

/-- After a fatal error the engine keeps no fault state: any further run with budget raises the same error in its first
cycle and leaves the state (40_cycle.md section 4, R94, which the spec derives; decisions D13, D14; log 23). -/
def Obligations.AFailedRunFailsAgainTheSameWay : Prop :=
  ∀ (n m : Nat) (s t : State) (e : EngineError), run n s = (t, .err e) → 0 < m →
    run m t = (t, .err { fault := e.fault, cycle := 0, pc := e.pc })

/-- The machine's steps under the budget of a run do what `run(n)` does: n completed cycles and the return leave its
state, and a fatal error ends them with the same error (10_state.md section 7, 40_cycle.md section 4; how step treats the
budget is log 7). -/
def Obligations.BudgetedStepsDoWhatRunDoes : Prop :=
  ∀ (n : Nat) (s t : State), s.budget = none →
    (run n s = (t, .ok) → Host.Core.run Sys2Proof.core (n + 1) (startRun n s) = .next t) ∧
    (∀ e, run n s = (t, .err e) → Host.Core.run Sys2Proof.core (n + 1) (startRun n s) = .fault e.fault)
end

