-- ==== Sys2Proof/Laws/Decode.lean ====
section
/-! SUPPORT. The fields of a packed word, the lookups of the opcode map, and the inversion of decode. -/

namespace Sys2Proof

/-! ## Fields of a packed word -/

section Pack
variable (op : Opcode) (d a : Reg) (y : BitVec 5)

/-- A packed word bit by bit (30_encoding.md R56). -/
theorem getLsbD_packFields (i : Nat) (h : i < 16) :
    (packFields op d a y).getLsbD i =
      if 11 ≤ i then op.getLsbD (i - 11) else if 8 ≤ i then (regBits d).getLsbD (i - 8)
      else if 5 ≤ i then (regBits a).getLsbD (i - 5) else y.getLsbD i := by
  have hy : 5 ≤ i → y.getLsbD i = false := y.getLsbD_of_ge i
  have ha : 8 ≤ i → (regBits a).getLsbD (i - 5) = false := fun h => (regBits a).getLsbD_of_ge _ (by omega)
  have hd : 11 ≤ i → (regBits d).getLsbD (i - 8) = false := fun h => (regBits d).getLsbD_of_ge _ (by omega)
  rw [packFields]
  simp only [BitVec.getLsbD_or, BitVec.getLsbD_shiftLeft, BitVec.getLsbD_setWidth, h, decide_true, Bool.true_and,
    show i - 11 < 16 by omega, show i - 8 < 16 by omega, show i - 5 < 16 by omega]
  by_cases h11 : 11 ≤ i
  · simp [h11, hy (by omega), ha (by omega), hd h11, show ¬ i < 11 by omega]
  · by_cases h8 : 8 ≤ i
    · simp [h11, h8, hy (by omega), ha h8, show i < 11 by omega, show ¬ i < 8 by omega]
    · by_cases h5 : 5 ≤ i
      · simp [h11, h8, h5, show i < 11 by omega, show i < 8 by omega, show ¬ i < 5 by omega]
      · simp [h11, h8, h5, show i < 11 by omega, show i < 8 by omega, show i < 5 by omega]

@[simp] theorem opcodeField_packFields : opcodeField (packFields op d a y) = op := by
  apply BitVec.eq_of_getLsbD_eq
  intro i hi
  simp [opcodeField, hi, getLsbD_packFields _ _ _ _ (11 + i) (by omega)]

@[simp] theorem destField_packFields : destField (packFields op d a y) = d := by
  refine congrArg BitVec.toFin (a₂ := regBits d) (BitVec.eq_of_getLsbD_eq fun i hi => ?_)
  simp [hi, getLsbD_packFields _ _ _ _ (8 + i) (by omega), show ¬ 11 ≤ 8 + i by omega]

@[simp] theorem src1Field_packFields : src1Field (packFields op d a y) = a := by
  refine congrArg BitVec.toFin (a₂ := regBits a) (BitVec.eq_of_getLsbD_eq fun i hi => ?_)
  simp [hi, getLsbD_packFields _ _ _ _ (5 + i) (by omega), show ¬ 11 ≤ 5 + i by omega,
    show ¬ 8 ≤ 5 + i by omega]

@[simp] theorem src2Field_packFields : src2Field (packFields op d a y) = y := by
  apply BitVec.eq_of_getLsbD_eq
  intro i hi
  simp [src2Field, hi, getLsbD_packFields _ _ _ _ i (by omega), show ¬ 11 ≤ i by omega,
    show ¬ 8 ≤ i by omega, show ¬ 5 ≤ i by omega]

@[simp] theorem immFlag_packFields : immFlag (packFields op d a y) = y.getLsbD 4 := by
  rw [immFlag, getLsbD_packFields _ _ _ _ 4 (by omega)]
  rfl
end Pack

/-- The imm-flag is the top bit of the src2-field (30_encoding.md R56). -/
theorem immFlag_eq (w : Word) : immFlag w = (src2Field w).getLsbD 4 := by
  simp [immFlag, src2Field]

/-- The second operand is a function of the src2-field alone. -/
theorem src2Of_eq (w : Word) :
    src2Of w =
      if (src2Field w).getLsbD 4 then .imm (sext5 (src2Field w)) else .reg (src2RegField (src2Field w)) := by
  rw [src2Of, immFlag_eq]

/-- A register operand's field decodes to it, with the imm-flag 0. -/
theorem field_reg (r : Reg) :
    (Src2.field (.reg r)).getLsbD 4 = false ∧ src2RegField (Src2.field (.reg r)) = r := by
  revert r
  decide

/-- A well-formed immediate's field decodes to it, with the imm-flag 1 (30_encoding.md R58). -/
theorem field_imm {k : Int} (h : (Src2.imm k).wf = true) :
    (Src2.field (.imm k)).getLsbD 4 = true ∧ sext5 (Src2.field (.imm k)) = k := by
  simp only [Src2.wf, Bool.and_eq_true, decide_eq_true_eq] at h
  obtain ⟨lo, hi⟩ := h
  obtain ⟨n, rfl⟩ : ∃ n : Nat, k = (n : Int) - 16 := ⟨(k + 16).toNat, by omega⟩
  have hn : n < 16 := by omega
  clear lo hi
  revert n
  decide

/-! ## The opcode map -/

theorem Mnemonic.mem_all (m : Mnemonic) : m ∈ Mnemonic.all := by cases m <;> decide

theorem Mnemonic.index_injective {m m' : Mnemonic} (h : m.index = m'.index) : m = m' := by
  revert h
  cases m <;> cases m' <;> first | exact fun _ => rfl | (intro h; exact absurd h (by decide))

/-- A one-to-one map gives different mnemonics different opcodes (30_encoding.md R60). -/
theorem OpcodeMap.opcodeOf_injective {map : OpcodeMap} (h : map.wf = true) {m m' : Mnemonic}
    (e : map.opcodeOf m = map.opcodeOf m') : m = m' := by
  have hn : map.toList.Nodup := of_decide_eq_true h
  refine Mnemonic.index_injective (Fin.ext ?_)
  have hl : map.toList.length = 30 := by simp
  refine (List.Nodup.getElem_inj_iff hn (hi := by omega) (hj := by omega)).mp ?_
  simpa [OpcodeMap.opcodeOf] using e

/-- What a map's lookup finds has that opcode. -/
theorem OpcodeMap.opcodeOf_of_mnemonicOf? {map : OpcodeMap} {op : Opcode} {m : Mnemonic}
    (h : map.mnemonicOf? op = some m) : map.opcodeOf m = op := by
  simpa using List.find?_some h

/-- The lookup of a one-to-one map inverts it. -/
theorem OpcodeMap.mnemonicOf?_opcodeOf {map : OpcodeMap} (h : map.wf = true) (m : Mnemonic) :
    map.mnemonicOf? (map.opcodeOf m) = some m := by
  cases hf : map.mnemonicOf? (map.opcodeOf m) with
  | none => exact absurd (List.find?_eq_none.mp hf m m.mem_all) (by simp)
  | some m' => rw [OpcodeMap.opcodeOf_injective h (OpcodeMap.opcodeOf_of_mnemonicOf? hf)]

/-- An opcode no mnemonic has finds nothing. -/
theorem OpcodeMap.mnemonicOf?_eq_none {map : OpcodeMap} {op : Opcode} :
    map.mnemonicOf? op = none ↔ ∀ m, map.opcodeOf m ≠ op := by
  refine ⟨fun h m => ?_, fun h => List.find?_eq_none.mpr fun m _ => by simpa using h m⟩
  simpa using List.find?_eq_none.mp h m m.mem_all

/-! ## Decode -/

@[simp] theorem mnemonic_withOperands (d a : Reg) (y : Src2) (m : Mnemonic) :
    (m.withOperands d a y).mnemonic = m := by cases m <;> rfl

/-- Everything an accepted word says. -/
theorem decode_ok {map : OpcodeMap} {w : Word} {i : Instr} (h : decode map w = .ok i) :
    map.opcodeOf i.mnemonic = opcodeField w ∧
      i = i.mnemonic.withOperands (destField w) (src1Field w) (src2Of w) := by
  unfold decode at h
  split at h
  · cases h
  · next m hm =>
    cases h
    simp [OpcodeMap.opcodeOf_of_mnemonicOf? hm]

/-- A word is rejected exactly when its opcode is unmapped, and with that opcode. -/
theorem decode_error {map : OpcodeMap} {w : Word} {e : DecodeError} :
    decode map w = .error e ↔ e = .unknownOpcode (opcodeField w) ∧ ∀ m, map.opcodeOf m ≠ opcodeField w := by
  unfold decode
  split
  · next hm => simp [OpcodeMap.mnemonicOf?_eq_none.mp hm, eq_comm]
  · next m hm =>
    simp only [reduceCtorEq, false_iff, not_and, not_forall, not_not]
    exact fun _ => ⟨m, OpcodeMap.opcodeOf_of_mnemonicOf? hm⟩

end Sys2Proof
end

