-- ==== Sys2Proof/Laws/Memory.lean ====
section
/-! SUPPORT. The laws of the memory: read after write, the canonical form and that every operation keeps
it, and that canonical memories reading alike are equal. -/

namespace Sys2Proof.Machine

@[simp] theorem Memory.read_nil (a : Nat) : Memory.read [] a = Memory.unlisted := rfl

theorem Memory.read_cons (k : Nat) (w : Word) (m : Memory) (a : Nat) :
    Memory.read ((k, w) :: m) a = if a = k then w else Memory.read m a := rfl

/-- An address no entry lists reads as the unlisted value. -/
theorem Memory.read_eq_unlisted {m : Memory} {a : Nat} (h : ∀ p ∈ m, p.1 ≠ a) :
    m.read a = Memory.unlisted := by
  induction m with
  | nil => rfl
  | cons p m ih =>
    have hp : a ≠ p.1 := fun e => h p (by simp) e.symm
    rw [Memory.read_cons, if_neg hp, ih fun q hq => h q (by simp [hq])]

theorem Memory.read_consCell_self {m : Memory} {a : Nat} (w : Word) (h : ∀ p ∈ m, p.1 ≠ a) :
    (Memory.cons a w m).read a = w := by
  unfold Memory.cons
  split
  · next hw => rw [hw, Memory.read_eq_unlisted h]
  · simp [Memory.read_cons]

theorem Memory.read_consCell_other {m : Memory} {a b : Nat} (w : Word) (h : b ≠ a) :
    (Memory.cons a w m).read b = m.read b := by
  unfold Memory.cons
  split
  · rfl
  · rw [Memory.read_cons, if_neg h]

/-- The tail of a canonical memory is canonical. -/
theorem Memory.wf_tail {p : Nat × Word} {m : Memory} (h : Memory.wf (p :: m)) : m.wf :=
  ⟨(List.pairwise_cons.mp h.1).2, fun q hq => h.2 q (by simp [hq])⟩

/-- In a canonical memory the first address is below all others. -/
theorem Memory.wf_head_lt {p : Nat × Word} {m : Memory} (h : Memory.wf (p :: m)) :
    ∀ q ∈ m, p.1 < q.1 := (List.pairwise_cons.mp h.1).1

theorem Memory.wf_consCell {m : Memory} {a : Nat} (w : Word) (h : m.wf) (ha : ∀ p ∈ m, a < p.1) :
    (Memory.cons a w m).wf := by
  unfold Memory.cons
  split
  · exact h
  · next hw =>
    refine ⟨List.pairwise_cons.mpr ⟨ha, h.1⟩, fun q hq => ?_⟩
    rcases List.mem_cons.mp hq with rfl | hq
    · exact hw
    · exact h.2 q hq

/-- A word written reads back (20_memory.md R49). -/
theorem Memory.read_write_self {m : Memory} (h : m.wf) (a : Nat) (w : Word) : (m.write a w).read a = w := by
  induction m with
  | nil => exact Memory.read_consCell_self w (by simp)
  | cons p m ih =>
    obtain ⟨k, u⟩ := p
    have hlt := Memory.wf_head_lt h
    simp only [Memory.write]
    split
    · next hak =>
      refine Memory.read_consCell_self w fun q hq => ?_
      rcases List.mem_cons.mp hq with rfl | hq
      · exact (Nat.ne_of_lt hak).symm
      · exact (Nat.ne_of_lt (Nat.lt_trans hak (hlt q hq))).symm
    · split
      · next hak => subst hak; exact Memory.read_consCell_self w fun q hq => (Nat.ne_of_lt (hlt q hq)).symm
      · next hak => rw [Memory.read_cons, if_neg hak, ih (Memory.wf_tail h)]

/-- A write leaves every other address alone (20_memory.md R44). -/
theorem Memory.read_write_other (m : Memory) {a b : Nat} (w : Word) (h : b ≠ a) :
    (m.write a w).read b = m.read b := by
  induction m with
  | nil => exact Memory.read_consCell_other w h
  | cons p m ih =>
    obtain ⟨k, u⟩ := p
    simp only [Memory.write]
    split
    · exact Memory.read_consCell_other w h
    · split
      · next hak => subst hak; rw [Memory.read_consCell_other w h, Memory.read_cons, if_neg h]
      · rw [Memory.read_cons, Memory.read_cons, ih]

/-- A write lists no address but the one written and those listed before. -/
theorem Memory.mem_write {m : Memory} {a : Nat} {w : Word} {p : Nat × Word} (hp : p ∈ m.write a w) :
    p = (a, w) ∨ p ∈ m := by
  have cell : ∀ {m' : Memory}, p ∈ Memory.cons a w m' → p = (a, w) ∨ p ∈ m' := by
    intro m' hp
    unfold Memory.cons at hp
    split at hp
    · exact .inr hp
    · exact List.mem_cons.mp hp
  induction m with
  | nil => exact cell hp
  | cons q m ih =>
    obtain ⟨k, u⟩ := q
    simp only [Memory.write] at hp
    split at hp
    · exact cell hp
    · split at hp
      · exact (cell hp).imp_right fun h => by simp [h]
      · rcases List.mem_cons.mp hp with rfl | hp
        · exact .inr (by simp)
        · exact (ih hp).imp_right fun h => by simp [h]

/-- A write keeps the canonical form. -/
theorem Memory.write_wf {m : Memory} (h : m.wf) (a : Nat) (w : Word) : (m.write a w).wf := by
  induction m with
  | nil => exact Memory.wf_consCell w h (by simp)
  | cons p m ih =>
    obtain ⟨k, u⟩ := p
    have hlt := Memory.wf_head_lt h
    simp only [Memory.write]
    split
    · next hak =>
      refine Memory.wf_consCell w h fun q hq => ?_
      rcases List.mem_cons.mp hq with rfl | hq
      · exact hak
      · exact Nat.lt_trans hak (hlt q hq)
    · next hge =>
      split
      · next hak => subst hak; exact Memory.wf_consCell w (Memory.wf_tail h) hlt
      · next hak =>
        have hih := ih (Memory.wf_tail h)
        refine ⟨List.pairwise_cons.mpr ⟨fun q hq => ?_, hih.1⟩, fun q hq => ?_⟩
        · rcases Memory.mem_write hq with rfl | hq
          · exact Nat.lt_of_le_of_ne (Nat.le_of_not_lt hge) (Ne.symm hak)
          · exact hlt q hq
        · rcases List.mem_cons.mp hq with rfl | hq
          · exact h.2 _ (by simp)
          · exact hih.2 q hq

/-- An image lists only the addresses it fills. -/
theorem Memory.mem_ofWordsAt {a : Nat} {image : List Word} {p : Nat × Word}
    (hp : p ∈ Memory.ofWordsAt a image) : a ≤ p.1 ∧ p.1 < a + image.length := by
  induction image generalizing a with
  | nil => simp [Memory.ofWordsAt] at hp
  | cons w image ih =>
    have cell : p = (a, w) ∨ p ∈ Memory.ofWordsAt (a + 1) image := by
      simp only [Memory.ofWordsAt, Memory.cons] at hp
      split at hp
      · exact .inr hp
      · exact List.mem_cons.mp hp
    rcases cell with rfl | hp
    · simp
    · have := ih hp; simp only [List.length_cons]; omega

/-- An image's memory is canonical. -/
theorem Memory.ofWordsAt_wf (a : Nat) (image : List Word) : (Memory.ofWordsAt a image).wf := by
  induction image generalizing a with
  | nil => exact ⟨List.Pairwise.nil, by simp [Memory.ofWordsAt]⟩
  | cons w image ih =>
    exact Memory.wf_consCell w (ih (a + 1)) fun p hp => (Memory.mem_ofWordsAt hp).1

/-- The words of an image, and the unlisted value past its end (70_reset_and_hazards.md R221). -/
theorem Memory.read_ofWordsAt (a b : Nat) (image : List Word) :
    (Memory.ofWordsAt a image).read (a + b) = image.getD b Memory.unlisted := by
  induction image generalizing a b with
  | nil => simp [Memory.ofWordsAt]
  | cons w image ih =>
    cases b with
    | zero =>
      exact Memory.read_consCell_self w fun p hp => by have := (Memory.mem_ofWordsAt hp).1; omega
    | succ b =>
      simp only [Memory.ofWordsAt, List.getD_cons_succ]
      rw [Memory.read_consCell_other w (by omega), ← ih (a + 1) b]
      congr 1; omega

/-- A listed address of a canonical memory reads as its entry. -/
theorem Memory.read_of_mem {m : Memory} (h : m.wf) {p : Nat × Word} (hp : p ∈ m) : m.read p.1 = p.2 := by
  induction m with
  | nil => simp at hp
  | cons q m ih =>
    obtain ⟨k, u⟩ := q
    rw [Memory.read_cons]
    rcases List.mem_cons.mp hp with rfl | hp
    · simp
    · rw [if_neg (Nat.ne_of_gt (Memory.wf_head_lt h p hp)), ih (Memory.wf_tail h) hp]

/-- Canonical memories that read alike everywhere are equal data. -/
theorem Memory.eq_of_read_eq {m m' : Memory} (h : m.wf) (h' : m'.wf) (e : ∀ a, m.read a = m'.read a) :
    m = m' := by
  have listed : ∀ {m : Memory}, m.wf → ∀ p : Nat × Word, p ∈ m ↔ m.read p.1 = p.2 ∧ p.2 ≠ Memory.unlisted := by
    intro m h p
    refine ⟨fun hp => ⟨Memory.read_of_mem h hp, h.2 p hp⟩, fun ⟨hr, hn⟩ => ?_⟩
    have : ∃ q ∈ m, q.1 = p.1 := by
      by_contra hc
      refine hn (hr ▸ Memory.read_eq_unlisted fun q hq hqp => hc ⟨q, hq, hqp⟩)
    obtain ⟨q, hq, hqp⟩ := this
    have hq2 : q.2 = p.2 := by rw [← Memory.read_of_mem h hq, hqp, hr]
    exact (Prod.ext hqp hq2 : q = p) ▸ hq
  have hperm : ∀ p, p ∈ m ↔ p ∈ m' := fun p => by rw [listed h, listed h', e]
  refine List.Perm.eq_of_pairwise (le := fun p q : Nat × Word => p.1 < q.1)
    (fun p q _ _ hpq hqp => absurd hpq (Nat.lt_asymm hqp)) h.1 h'.1 ?_
  exact (List.perm_ext_iff_of_nodup (h.1.imp fun hpq hpq' => Nat.ne_of_lt hpq (congrArg Prod.fst hpq'))
    (h'.1.imp fun hpq hpq' => Nat.ne_of_lt hpq (congrArg Prod.fst hpq'))).mpr hperm

end Sys2Proof.Machine
end

