-- ==== Sys2Proof/Laws/State.lean ====
section
/-! SUPPORT. One lemma per field per update of State, and the register file's read-after-write laws. -/

namespace Sys2Proof.Machine

section SetReg
variable (s : State) (r : Reg) (v : Byte)
@[simp] theorem setReg_cfg : (s.setReg r v).cfg = s.cfg := rfl
@[simp] theorem setReg_pc : (s.setReg r v).pc = s.pc := rfl
@[simp] theorem setReg_regs : (s.setReg r v).regs = s.regs.set r v := rfl
@[simp] theorem setReg_flags : (s.setReg r v).flags = s.flags := rfl
@[simp] theorem setReg_mem : (s.setReg r v).mem = s.mem := rfl
@[simp] theorem setReg_budget : (s.setReg r v).budget = s.budget := rfl
@[simp] theorem setReg_word (a : Nat) : (s.setReg r v).word a = s.word a := rfl

/-- A written register reads as the value written (10_state.md R21: no register is hard-wired). -/
@[simp] theorem reg_setReg_self : (s.setReg r v).reg r = v := by
  simp [State.reg, State.setReg]

/-- A write leaves every other register alone. -/
theorem reg_setReg_other {r' : Reg} (h : r' ≠ r) : (s.setReg r v).reg r' = s.reg r' := by
  have h' : r.val ≠ r'.val := fun e => h (Fin.ext e.symm)
  simp [State.reg, State.setReg, Vector.getElem_set_ne, h']

/-- Both cases of reading after a register write. -/
theorem reg_setReg (r' : Reg) : (s.setReg r v).reg r' = if r' = r then v else s.reg r' := by
  split
  · next h => subst h; simp
  · next h => exact reg_setReg_other s r v h
end SetReg

section SetFlags
variable (s : State) (f : Flags)
@[simp] theorem setFlags_cfg : (s.setFlags f).cfg = s.cfg := rfl
@[simp] theorem setFlags_pc : (s.setFlags f).pc = s.pc := rfl
@[simp] theorem setFlags_regs : (s.setFlags f).regs = s.regs := rfl
@[simp] theorem setFlags_flags : (s.setFlags f).flags = f := rfl
@[simp] theorem setFlags_mem : (s.setFlags f).mem = s.mem := rfl
@[simp] theorem setFlags_budget : (s.setFlags f).budget = s.budget := rfl
@[simp] theorem setFlags_reg (r : Reg) : (s.setFlags f).reg r = s.reg r := rfl
@[simp] theorem setFlags_word (a : Nat) : (s.setFlags f).word a = s.word a := rfl
end SetFlags

section SetZero
variable (s : State) (b : Bool)
@[simp] theorem setZero_cfg : (s.setZero b).cfg = s.cfg := rfl
@[simp] theorem setZero_pc : (s.setZero b).pc = s.pc := rfl
@[simp] theorem setZero_regs : (s.setZero b).regs = s.regs := rfl
@[simp] theorem setZero_z : (s.setZero b).flags.z = b := rfl
@[simp] theorem setZero_c : (s.setZero b).flags.c = s.flags.c := rfl
@[simp] theorem setZero_n : (s.setZero b).flags.n = s.flags.n := rfl
@[simp] theorem setZero_v : (s.setZero b).flags.v = s.flags.v := rfl
@[simp] theorem setZero_mem : (s.setZero b).mem = s.mem := rfl
@[simp] theorem setZero_budget : (s.setZero b).budget = s.budget := rfl
@[simp] theorem setZero_reg (r : Reg) : (s.setZero b).reg r = s.reg r := rfl
@[simp] theorem setZero_word (a : Nat) : (s.setZero b).word a = s.word a := rfl
end SetZero

section SetPc
variable (s : State) (t : Nat)
@[simp] theorem setPc_cfg : (s.setPc t).cfg = s.cfg := rfl
@[simp] theorem setPc_pc : (s.setPc t).pc = t := rfl
@[simp] theorem setPc_regs : (s.setPc t).regs = s.regs := rfl
@[simp] theorem setPc_flags : (s.setPc t).flags = s.flags := rfl
@[simp] theorem setPc_mem : (s.setPc t).mem = s.mem := rfl
@[simp] theorem setPc_budget : (s.setPc t).budget = s.budget := rfl
@[simp] theorem setPc_reg (r : Reg) : (s.setPc t).reg r = s.reg r := rfl
@[simp] theorem setPc_word (a : Nat) : (s.setPc t).word a = s.word a := rfl
end SetPc

section Advance
variable (s : State)
@[simp] theorem advance_cfg : s.advance.cfg = s.cfg := rfl
@[simp] theorem advance_pc : s.advance.pc = s.pc + 1 := rfl
@[simp] theorem advance_regs : s.advance.regs = s.regs := rfl
@[simp] theorem advance_flags : s.advance.flags = s.flags := rfl
@[simp] theorem advance_mem : s.advance.mem = s.mem := rfl
@[simp] theorem advance_budget : s.advance.budget = s.budget := rfl
@[simp] theorem advance_reg (r : Reg) : s.advance.reg r = s.reg r := rfl
@[simp] theorem advance_word (a : Nat) : s.advance.word a = s.word a := rfl
end Advance

section SetBudget
variable (s : State) (b : Option Nat)
@[simp] theorem setBudget_cfg : (s.setBudget b).cfg = s.cfg := rfl
@[simp] theorem setBudget_pc : (s.setBudget b).pc = s.pc := rfl
@[simp] theorem setBudget_regs : (s.setBudget b).regs = s.regs := rfl
@[simp] theorem setBudget_flags : (s.setBudget b).flags = s.flags := rfl
@[simp] theorem setBudget_mem : (s.setBudget b).mem = s.mem := rfl
@[simp] theorem setBudget_budget : (s.setBudget b).budget = b := rfl
@[simp] theorem setBudget_reg (r : Reg) : (s.setBudget b).reg r = s.reg r := rfl
@[simp] theorem setBudget_word (a : Nat) : (s.setBudget b).word a = s.word a := rfl
@[simp] theorem setBudget_self : s.setBudget s.budget = s := rfl
@[simp] theorem setBudget_setBudget (c : Option Nat) : (s.setBudget b).setBudget c = s.setBudget c := rfl
end SetBudget

/-- Two states with the same parameters, pc, register values, flags, memory and budget are the same state. -/
theorem state_ext {s t : State} (hcfg : s.cfg = t.cfg) (hpc : s.pc = t.pc) (hreg : ∀ r, s.reg r = t.reg r)
    (hflags : s.flags = t.flags) (hmem : s.mem = t.mem) (hbudget : s.budget = t.budget) : s = t := by
  have hregs : s.regs = t.regs := Vector.ext fun i hi => hreg ⟨i, hi⟩
  cases s; cases t; simp_all

/-- Every register reads as 0 in the reset state (10_state.md R23). -/
@[simp] theorem reset_reg (r : Reg) : State.reset.reg r = 0 := by
  simp [State.reg, State.reset]

end Sys2Proof.Machine
end

