-- ==== Sys2Proof/Laws/Ops.lean ====
section
/-! SUPPORT. What each shared operation can do, said once: range-checked access, operand resolution, the
result shapes, the branch, and the inversion of exec. -/

namespace Sys2Proof.Machine

/-! ## Commit and range-checked access -/

@[simp] theorem raise_eq (f : Fault) : raise f = .fault f := rfl
@[simp] theorem commit_ok (s : State) : commit (.ok s) = .next s := rfl
@[simp] theorem commit_error (f : Fault) : commit (.error f) = .fault f := rfl

@[simp] theorem map_ok {α β : Type} (g : α → β) (a : α) : Except.map g (.ok a : Except Fault α) = .ok (g a) := rfl
@[simp] theorem map_error {α β : Type} (g : α → β) (f : Fault) :
    Except.map g (.error f : Except Fault α) = .error f := rfl

theorem commit_eq_next {e : Except Fault State} {t : State} : commit e = .next t ↔ e = .ok t := by
  cases e <;> simp

theorem commit_eq_fault {e : Except Fault State} {f : Fault} : commit e = .fault f ↔ e = .error f := by
  cases e <;> simp

theorem commit_ne_refused (e : Except Fault State) (r : Refusal) : commit e ≠ .refused r := by
  cases e <;> simp

theorem loadWord_inRange {s : State} {a : Int} (h : s.inRange a) : s.loadWord a = .ok (s.word a.toNat) :=
  if_pos h

theorem loadWord_outOfRange {s : State} {a : Int} (h : ¬ s.inRange a) :
    s.loadWord a = .error (.addressOutOfRange a) := if_neg h

theorem storeWord_inRange {s : State} {a : Int} (h : s.inRange a) (w : Word) :
    s.storeWord a w = .ok { s with mem := s.mem.write a.toNat w } := if_pos h

theorem storeWord_outOfRange {s : State} {a : Int} (h : ¬ s.inRange a) (w : Word) :
    s.storeWord a w = .error (.addressOutOfRange a) := if_neg h

theorem jump_inRange {s : State} {t : Int} (h : s.inRange t) : s.jump t = .ok (s.setPc t.toNat) := if_pos h

theorem jump_outOfRange {s : State} {t : Int} (h : ¬ s.inRange t) :
    s.jump t = .error (.addressOutOfRange t) := if_neg h

/-- A natural word address is in range iff it is below `MEM_SIZE`. -/
theorem inRange_natCast (s : State) (a : Nat) : s.inRange (a : Int) ↔ a < s.cfg.memSize := by
  simp [State.inRange]

/-! ## Operands -/

@[simp] theorem operandY_reg (s : State) (r : Reg) : s.operandY (.reg r) = ((s.reg r).toNat : Int) := rfl
@[simp] theorem operandY_imm (s : State) (k : Int) : s.operandY (.imm k) = k := rfl

/-- The register form's `Y8` is the register's value. -/
@[simp] theorem operandY8_reg (s : State) (r : Reg) : s.operandY8 (.reg r) = s.reg r := by
  simp [State.operandY8, as8]

theorem operandY8_imm (s : State) (k : Int) : s.operandY8 (.imm k) = BitVec.ofInt 8 k := rfl

/-- `as8` of an integer, as a natural number: the remainder modulo 256 (00_scope.md R9, R10). -/
theorem toNat_as8 (i : Int) : (as8 i).toNat = (i % 256).toNat := by
  simp [as8, BitVec.toNat_ofInt]

/-- The operand depends on the state through the registers only. -/
theorem operandY_congr {s t : State} (h : ∀ r, s.reg r = t.reg r) (y : Src2) : s.operandY y = t.operandY y := by
  cases y <;> simp [h]

/-! ## The result shapes -/

section Shapes
variable (s : State) (d : Reg) (u : Int) (c : Int → Bool) (r : Byte)

@[simp] theorem arithmetic_cfg : (s.arithmetic d u c).cfg = s.cfg := rfl
@[simp] theorem arithmetic_pc : (s.arithmetic d u c).pc = s.pc + 1 := rfl
@[simp] theorem arithmetic_flags : (s.arithmetic d u c).flags = arithFlags (as8 u) (c u) := rfl
@[simp] theorem arithmetic_mem : (s.arithmetic d u c).mem = s.mem := rfl
@[simp] theorem arithmetic_budget : (s.arithmetic d u c).budget = s.budget := rfl
@[simp] theorem arithmetic_word (a : Nat) : (s.arithmetic d u c).word a = s.word a := rfl

theorem arithmetic_reg (r' : Reg) :
    (s.arithmetic d u c).reg r' = if r' = d then as8 u else s.reg r' := by
  simp [State.arithmetic, reg_setReg]

@[simp] theorem logical_cfg : (s.logical d r).cfg = s.cfg := rfl
@[simp] theorem logical_pc : (s.logical d r).pc = s.pc + 1 := rfl
@[simp] theorem logical_z : (s.logical d r).flags.z = zeroFlag r := rfl
@[simp] theorem logical_c : (s.logical d r).flags.c = s.flags.c := rfl
@[simp] theorem logical_n : (s.logical d r).flags.n = s.flags.n := rfl
@[simp] theorem logical_v : (s.logical d r).flags.v = s.flags.v := rfl
@[simp] theorem logical_mem : (s.logical d r).mem = s.mem := rfl
@[simp] theorem logical_budget : (s.logical d r).budget = s.budget := rfl
@[simp] theorem logical_word (a : Nat) : (s.logical d r).word a = s.word a := rfl

theorem logical_reg (r' : Reg) : (s.logical d r).reg r' = if r' = d then r else s.reg r' := by
  simp [State.logical, reg_setReg]
end Shapes

/-- Negative as a comparison of the unsigned value (42_arithmetic.md R107). -/
theorem negativeFlag_eq (r : Byte) : negativeFlag r = decide (128 ≤ r.toNat) := by
  unfold negativeFlag
  revert r
  decide

/-- Zero as a comparison of the unsigned value (42_arithmetic.md R106). -/
theorem zeroFlag_eq (r : Byte) : zeroFlag r = decide (r.toNat = 0) := by
  unfold zeroFlag
  revert r
  decide

/-- What a branch does, whole (44_branch.md R150, R151). -/
theorem branch_eq (taken : Bool) (y : Src2) (s : State) :
    branch taken y s =
      if taken = true then
        if s.inRange (s.branchTarget y) then .next (s.setPc (s.branchTarget y).toNat)
        else .fault (.addressOutOfRange (s.branchTarget y))
      else .next s.advance := by
  unfold branch State.jump
  split
  · split <;> rfl
  · rfl

/-- Where a branch completes only the pc has changed, to `pc + 1` or into memory. -/
theorem branch_next {taken : Bool} {y : Src2} {s t : State} (h : branch taken y s = .next t) :
    ∃ p, t = s.setPc p ∧ (p = s.pc + 1 ∨ p < s.cfg.memSize) := by
  rw [branch_eq] at h
  split at h
  · split at h
    · next hr => cases h; exact ⟨_, rfl, .inr (by have := hr.1; have := hr.2; omega)⟩
    · cases h
  · cases h; exact ⟨_, rfl, .inl rfl⟩

/-! ## Inversion of exec -/

/-- The states an instruction can lead to, one shape for each of the spec's result shapes
(40_cycle.md R85). -/
inductive ExecShape (i : Instr) (s : State) : State → Prop where
  /-- Arithmetic: `as8 u` into `d`, all four flags, pc + 1. -/
  | arithmetic (d : Reg) (u : Int) (c : Int → Bool) : Instr.resultReg? i = some d →
      Instr.isArithmetic i = true → Instr.storeAddress? s i = none → ExecShape i s (s.arithmetic d u c)
  /-- Logical, shift or load: `r` into `d`, Zero, pc + 1. -/
  | logical (d : Reg) (r : Byte) : Instr.resultReg? i = some d → Instr.isArithmetic i = false →
      Instr.storeAddress? s i = none → ExecShape i s (s.logical d r)
  /-- No-op or branch: only the pc, to `pc + 1` or into memory. -/
  | jump (p : Nat) : Instr.resultReg? i = none → Instr.isArithmetic i = false →
      Instr.storeAddress? s i = none → p = s.pc + 1 ∨ p < s.cfg.memSize → ExecShape i s (s.setPc p)
  /-- Store: one word at the operand's address, pc + 1. -/
  | store (d a : Reg) (y : Src2) : i = .str d a y → s.inRange (s.operandY y) →
      ExecShape i s (State.advance
        { s with mem := s.mem.write (s.operandY y).toNat (zext16 (s.reg (strDataReg s.cfg.strDataField d a y))) })

/-- Everything a completed instruction can have done. -/
theorem exec_next {i : Instr} {s t : State} (h : exec i s = .next t) : ExecShape i s t := by
  have jumped : ∀ {taken : Bool} {y : Src2}, branch taken y s = .next t → Instr.resultReg? i = none →
      Instr.isArithmetic i = false → Instr.storeAddress? s i = none → ExecShape i s t := by
    intro taken y hb h1 h2 h3
    obtain ⟨p, rfl, hp⟩ := branch_next hb
    exact .jump p h1 h2 h3 hp
  cases i with
  | nop => cases h; exact .jump _ rfl rfl rfl (.inl rfl)
  | add d a y => cases h; exact .arithmetic d _ _ rfl rfl rfl
  | sub d a y => cases h; exact .arithmetic d _ _ rfl rfl rfl
  | mul d a y => cases h; exact .arithmetic d _ _ rfl rfl rfl
  | div d a y =>
    simp only [exec, execDiv] at h
    split at h
    · cases h
    · cases h; exact .arithmetic d _ _ rfl rfl rfl
  | neg d y => cases h; exact .arithmetic d _ _ rfl rfl rfl
  | and d a y => cases h; exact .logical d _ rfl rfl rfl
  | or d a y => cases h; exact .logical d _ rfl rfl rfl
  | xor d a y => cases h; exact .logical d _ rfl rfl rfl
  | not d y => cases h; exact .logical d _ rfl rfl rfl
  | lsl d a y => cases h; exact .logical d _ rfl rfl rfl
  | lsr d a y => cases h; exact .logical d _ rfl rfl rfl
  | asr d a y => cases h; exact .logical d _ rfl rfl rfl
  | beq y => exact jumped h rfl rfl rfl
  | bneq y => exact jumped h rfl rfl rfl
  | blt y => exact jumped h rfl rfl rfl
  | ble y => exact jumped h rfl rfl rfl
  | bgt y => exact jumped h rfl rfl rfl
  | bge y => exact jumped h rfl rfl rfl
  | b y => exact jumped (taken := true) (y := y) h rfl rfl rfl
  | bcs y => exact jumped h rfl rfl rfl
  | bcc y => exact jumped h rfl rfl rfl
  | bmi y => exact jumped h rfl rfl rfl
  | bpl y => exact jumped h rfl rfl rfl
  | bvs y => exact jumped h rfl rfl rfl
  | bvc y => exact jumped h rfl rfl rfl
  | bhi y => exact jumped h rfl rfl rfl
  | bls y => exact jumped h rfl rfl rfl
  | ldr d y =>
    simp only [exec, execLdr] at h
    by_cases hr : s.inRange (s.operandY y)
    · rw [loadWord_inRange hr] at h
      cases h; exact .logical d _ rfl rfl rfl
    · rw [loadWord_outOfRange hr] at h
      cases h
  | str d a y =>
    simp only [exec, execStr] at h
    by_cases hr : s.inRange (s.operandY y)
    · rw [storeWord_inRange hr] at h
      cases h; exact .store d a y rfl hr
    · rw [storeWord_outOfRange hr] at h
      cases h

end Sys2Proof.Machine
end

