-- ==== Sys2Proof/Laws/PerInstr.lean ====
section
/-! SUPPORT. Per-instruction laws, one lemma for each constructor of Instr. -/

/-- The word an instruction encodes to carries the opcode the map gives its mnemonic in bits 15:11
(30_encoding.md R56, R60), whatever its operands. -/
def Sys2Proof.Laws.EncodedOpcode.Statement (i : Sys2Proof.Instr) : Prop :=
  ∀ map : Sys2Proof.OpcodeMap, (Sys2Proof.encode map i).extractLsb' 11 5 = map.opcodeOf i.mnemonic

/-- The law for any instruction; the lemmas below are its cases. -/
theorem Sys2Proof.Laws.encodedOpcode_of (i : Sys2Proof.Instr) : Sys2Proof.Laws.EncodedOpcode.Statement i :=
  fun _ => Sys2Proof.opcodeField_packFields _ _ _ _

namespace Sys2Proof.Laws.EncodedOpcode

theorem nop : Statement (.nop) := encodedOpcode_of _
theorem add (d a : Reg) (y : Src2) : Statement (.add d a y) := encodedOpcode_of _
theorem sub (d a : Reg) (y : Src2) : Statement (.sub d a y) := encodedOpcode_of _
theorem mul (d a : Reg) (y : Src2) : Statement (.mul d a y) := encodedOpcode_of _
theorem div (d a : Reg) (y : Src2) : Statement (.div d a y) := encodedOpcode_of _
theorem neg (d : Reg) (y : Src2) : Statement (.neg d y) := encodedOpcode_of _
theorem and (d a : Reg) (y : Src2) : Statement (.and d a y) := encodedOpcode_of _
theorem or (d a : Reg) (y : Src2) : Statement (.or d a y) := encodedOpcode_of _
theorem xor (d a : Reg) (y : Src2) : Statement (.xor d a y) := encodedOpcode_of _
theorem not (d : Reg) (y : Src2) : Statement (.not d y) := encodedOpcode_of _
theorem lsl (d a : Reg) (y : Src2) : Statement (.lsl d a y) := encodedOpcode_of _
theorem lsr (d a : Reg) (y : Src2) : Statement (.lsr d a y) := encodedOpcode_of _
theorem asr (d a : Reg) (y : Src2) : Statement (.asr d a y) := encodedOpcode_of _
theorem beq (y : Src2) : Statement (.beq y) := encodedOpcode_of _
theorem bneq (y : Src2) : Statement (.bneq y) := encodedOpcode_of _
theorem blt (y : Src2) : Statement (.blt y) := encodedOpcode_of _
theorem ble (y : Src2) : Statement (.ble y) := encodedOpcode_of _
theorem bgt (y : Src2) : Statement (.bgt y) := encodedOpcode_of _
theorem bge (y : Src2) : Statement (.bge y) := encodedOpcode_of _
theorem b (y : Src2) : Statement (.b y) := encodedOpcode_of _
theorem bcs (y : Src2) : Statement (.bcs y) := encodedOpcode_of _
theorem bcc (y : Src2) : Statement (.bcc y) := encodedOpcode_of _
theorem bmi (y : Src2) : Statement (.bmi y) := encodedOpcode_of _
theorem bpl (y : Src2) : Statement (.bpl y) := encodedOpcode_of _
theorem bvs (y : Src2) : Statement (.bvs y) := encodedOpcode_of _
theorem bvc (y : Src2) : Statement (.bvc y) := encodedOpcode_of _
theorem bhi (y : Src2) : Statement (.bhi y) := encodedOpcode_of _
theorem bls (y : Src2) : Statement (.bls y) := encodedOpcode_of _
theorem ldr (d : Reg) (y : Src2) : Statement (.ldr d y) := encodedOpcode_of _
theorem str (d a : Reg) (y : Src2) : Statement (.str d a y) := encodedOpcode_of _

end Sys2Proof.Laws.EncodedOpcode
end

