-- ==== Sys2Proof/Laws/Step.lean ====
section
/-! SUPPORT. What a cycle and a step can do, said once. -/

namespace Sys2Proof.Machine

theorem fetch_inside {s : State} (h : s.pc < s.cfg.memSize) : fetch s = .ok (s.word s.pc) :=
  loadWord_inRange ((inRange_natCast s s.pc).mpr h)

theorem fetch_outside {s : State} (h : s.cfg.memSize ≤ s.pc) : fetch s = .error (.addressOutOfRange s.pc) :=
  loadWord_outOfRange fun hr => absurd ((inRange_natCast s s.pc).mp hr) (Nat.not_lt.mpr h)

/-- A cycle with the pc inside memory whose word is an instruction is that instruction's meaning. -/
theorem cycle_decoded {s : State} {i : Instr} (h : s.pc < s.cfg.memSize)
    (hd : decode s.cfg.opcodeMap (s.word s.pc) = .ok i) : cycle s = exec i s := by
  simp [cycle, fetch_inside h, hd]

theorem cycle_undecoded {s : State} {e : DecodeError} (h : s.pc < s.cfg.memSize)
    (hd : decode s.cfg.opcodeMap (s.word s.pc) = .error e) : cycle s = .fault (decodeFault e) := by
  simp [cycle, fetch_inside h, hd]

theorem cycle_outside {s : State} (h : s.cfg.memSize ≤ s.pc) : cycle s = .fault (.addressOutOfRange s.pc) := by
  simp [cycle, fetch_outside h]

/-- Everything a completed cycle can have been. -/
theorem cycle_next {s t : State} (h : cycle s = .next t) :
    s.pc < s.cfg.memSize ∧ ∃ i, decode s.cfg.opcodeMap (s.word s.pc) = .ok i ∧ exec i s = .next t := by
  by_cases hp : s.pc < s.cfg.memSize
  · refine ⟨hp, ?_⟩
    cases hd : decode s.cfg.opcodeMap (s.word s.pc) with
    | error e => rw [cycle_undecoded hp hd] at h; cases h
    | ok i => exact ⟨i, rfl, by rw [← cycle_decoded hp hd]; exact h⟩
  · rw [cycle_outside (Nat.le_of_not_lt hp)] at h; cases h

theorem step_idle {s : State} (h : s.budget = none) : step s = cycle s := by
  simp [step, budgetedCycle, h]

theorem step_exhausted {s : State} (h : s.budget = some 0) : step s = .next (s.setBudget none) := by
  simp [step, budgetedCycle, h]

theorem step_running {s : State} {k : Nat} (h : s.budget = some (k + 1)) : step s = spend k (cycle s) := by
  simp [step, budgetedCycle, h]

@[simp] theorem spend_next (k : Nat) (s : State) : spend k (.next s) = .next (s.setBudget (some k)) := rfl
@[simp] theorem spend_fault (k : Nat) (f : Fault) : spend k (.fault f) = .fault f := rfl
@[simp] theorem spend_refused (k : Nat) (r : Refusal) : spend k (.refused r) = .refused r := rfl

/-- Everything a step that answers a next state can have been: a completed cycle up to the budget, or the
return of an exhausted run. -/
theorem step_next {s t : State} (h : step s = .next t) :
    (∃ u, cycle s = .next u ∧ t = u.setBudget t.budget) ∨ (s.budget = some 0 ∧ t = s.setBudget none) := by
  cases hb : s.budget with
  | none => rw [step_idle hb] at h; exact .inl ⟨t, h, rfl⟩
  | some k =>
    cases k with
    | zero => rw [step_exhausted hb] at h; cases h; exact .inr ⟨rfl, rfl⟩
    | succ k =>
      rw [step_running hb] at h
      cases hc : cycle s with
      | next u => rw [hc, spend_next] at h; cases h; exact .inl ⟨u, rfl, rfl⟩
      | fault f => rw [hc] at h; cases h
      | refused r => rw [hc] at h; cases h

end Sys2Proof.Machine
end

