-- ==== Sys2Proof/Tests/Slice0.lean ====
section
/-! SUPPORT. The model's own tests. Expected values come from the spec: the encodings of 30_encoding.md R62 and
R69 written out bit by bit, and the vectors of 95_test_vectors.md (named in each comment). The last part gives, for each
statement with hypotheses, states and operands that meet them. -/

namespace Sys2Proof.Tests
open Sys2Proof Sys2Proof.Machine

/-! ## Well-formedness: an ill-formed term for each check, refused -/

theorem test_wf_refuses_immediate_zero : (Instr.add 0 0 (.imm 0)).wf = false := by decide
theorem test_wf_refuses_immediate_below_range : (Instr.ldr 0 (.imm (-17))).wf = false := by decide
theorem test_wf_accepts_both_ends :
    (Instr.b (.imm (-16))).wf = true ∧ (Instr.b (.imm (-1))).wf = true ∧ (Instr.b (.reg 7)).wf = true := by decide
theorem test_wf_refuses_map_with_a_repeated_opcode :
    OpcodeMap.wf (defaultOpcodeMap.set 3 0b00001) = false := by decide
theorem test_wf_accepts_default_map : defaultOpcodeMap.wf = true := by decide

/-! ## Decoding: one word for every constructor, written bit by bit (opcode, dest, src1, imm-flag, rest) -/

/-- The instruction a word decodes to under the default map. -/
def dec (w : Word) : Option Instr := (decode defaultOpcodeMap w).toOption

theorem test_decode_nop : dec 0b00000_000_000_0_0000 = some .nop ∧ dec 0b00000_000_000_1_0000 = some .nop := by decide
theorem test_decode_add : dec 0b00001_000_110_0_0111 = some (.add 0 6 (.reg 7)) := by decide
theorem test_decode_sub : dec 0b00010_001_001_1_1111 = some (.sub 1 1 (.imm (-1))) := by decide
theorem test_decode_mul : dec 0b00011_010_001_1_1111 = some (.mul 2 1 (.imm (-1))) := by decide
theorem test_decode_div : dec 0b00100_111_110_0_0000 = some (.div 7 6 (.reg 0)) := by decide
theorem test_decode_neg : dec 0b00101_001_000_1_1000 = some (.neg 1 (.imm (-8))) := by decide
theorem test_decode_and : dec 0b00110_010_001_1_0000 = some (.and 2 1 (.imm (-16))) := by decide
theorem test_decode_or : dec 0b00111_011_000_1_1111 = some (.or 3 0 (.imm (-1))) := by decide
theorem test_decode_xor : dec 0b01000_101_011_0_0110 = some (.xor 5 3 (.reg 6)) := by decide
theorem test_decode_not : dec 0b01001_011_101_0_0001 = some (.not 3 (.reg 1)) := by decide
theorem test_decode_lsl : dec 0b01010_110_011_0_0001 = some (.lsl 6 3 (.reg 1)) := by decide
theorem test_decode_lsr : dec 0b01011_101_011_0_0001 = some (.lsr 5 3 (.reg 1)) := by decide
theorem test_decode_asr : dec 0b01100_100_011_0_0001 = some (.asr 4 3 (.reg 1)) := by decide
theorem test_decode_beq : dec 0b01101_000_000_1_1110 = some (.beq (.imm (-2))) := by decide
theorem test_decode_bneq : dec 0b01110_000_000_1_1101 = some (.bneq (.imm (-3))) := by decide
theorem test_decode_blt : dec 0b01111_000_000_1_1111 = some (.blt (.imm (-1))) := by decide
theorem test_decode_ble : dec 0b10000_000_000_0_0001 = some (.ble (.reg 1)) := by decide
theorem test_decode_bgt : dec 0b10001_000_000_1_1111 = some (.bgt (.imm (-1))) := by decide
theorem test_decode_bge : dec 0b10010_000_000_1_0000 = some (.bge (.imm (-16))) := by decide
theorem test_decode_b : dec 0b10011_000_000_1_1111 = some (.b (.imm (-1))) := by decide
theorem test_decode_bcs : dec 0b10100_000_000_0_0011 = some (.bcs (.reg 3)) := by decide
theorem test_decode_bcc : dec 0b10101_000_000_0_0011 = some (.bcc (.reg 3)) := by decide
theorem test_decode_bmi : dec 0b10110_000_000_1_1111 = some (.bmi (.imm (-1))) := by decide
theorem test_decode_bpl : dec 0b10111_000_000_0_0010 = some (.bpl (.reg 2)) := by decide
theorem test_decode_bvs : dec 0b11000_000_000_1_1011 = some (.bvs (.imm (-5))) := by decide
theorem test_decode_bvc : dec 0b11001_000_000_1_1111 = some (.bvc (.imm (-1))) := by decide
theorem test_decode_bhi : dec 0b11010_000_000_0_0011 = some (.bhi (.reg 3)) := by decide
theorem test_decode_bls : dec 0b11011_000_000_0_0011 = some (.bls (.reg 3)) := by decide
theorem test_decode_ldr : dec 0b11100_110_000_0_0001 = some (.ldr 6 (.reg 1)) := by decide
theorem test_decode_str : dec 0b11101_010_001_0_0011 = some (.str 2 1 (.reg 3)) := by decide
/-- The two unmapped opcodes (30_encoding.md R62). -/
theorem test_decode_unmapped : dec 0b11110_000_000_0_0000 = none ∧ dec 0b11111_111_111_1_1111 = none := by decide
/-- Vector D-1: bit 3 of the register form is ignored. -/
theorem test_decode_ignores_bit_three : dec 0x0A29 = some (.add 2 1 (.reg 1)) := by decide

/-- Vectors of 95_test_vectors.md L2.1, the other way. -/
theorem test_encode_vectors :
    encode defaultOpcodeMap (.add 2 2 (.imm (-1))) = 0x0A5F ∧ encode defaultOpcodeMap (.str 0 2 (.reg 1)) = 0xE841 ∧
    encode defaultOpcodeMap (.b (.imm (-1))) = 0x981F ∧ encode defaultOpcodeMap (.not 3 (.reg 0)) = 0x4B00 := by decide

theorem test_table_word : decodeTableWord 16 0x08C7 = some (.add 0 6 (.reg 7)) ∧ decodeTableWord 16 0xF000 = none := by
  decide

/-! ## Meanings, one step each -/

/-- No flag set. -/
def clear : Flags := ⟨false, false, false, false⟩

/-- A state at `pc` with `x[1]`, `x[2]`, the flags and the memory given, otherwise as at reset. -/
def at_ (pc : Nat) (x1 x2 : Byte) (f : Flags) (m : Memory) : State :=
  { State.reset with pc := pc, regs := #v[0, x1, x2, 0, 0, 0, 0, 0], flags := f, mem := m }

/-- What is seen in the next state, if there is one. -/
def seen {α : Type} (g : State → α) : Result → Option α
  | .next t => some (g t)
  | .fault _ => none
  | .refused _ => none

/-- The fault, if there is one. -/
def faultOf : Result → Option Fault
  | .next _ => none
  | .fault f => some f
  | .refused _ => none

/-- `x[3]` and the flags Z, N, C, V after an instruction, from `X = x[1]`, `Y8 = x[2]` and given flags. -/
def alu (i : Instr) (x y : Byte) (f : Flags) : Option (Byte × Bool × Bool × Bool × Bool) :=
  seen (fun t => (t.reg 3, t.flags.z, t.flags.n, t.flags.c, t.flags.v)) (exec i (at_ 0 x y f []))

/-- The pc after an instruction at `pc` with `x[1] = x` and given flags. -/
def goes (i : Instr) (pc : Nat) (x : Byte) (f : Flags) : Option Nat := seen State.pc (exec i (at_ pc x 0 f []))

/-- R100's example: only the pc moves. -/
theorem test_nop : seen (fun t => decide (t = at_ 4 7 8 clear [])) (exec .nop (at_ 3 7 8 clear [])) = some true := by decide
/-- A2 and A4. -/
theorem test_add_carry : alu (.add 3 1 (.reg 2)) 200 100 clear = some (44, false, false, true, false) := by decide
theorem test_add_wraps_to_zero : alu (.add 3 1 (.reg 2)) 255 1 clear = some (0, true, false, true, true) := by decide
/-- A10 and A12 (the immediate subtracts 255). -/
theorem test_sub_borrow : alu (.sub 3 1 (.reg 2)) 3 5 clear = some (254, false, true, true, true) := by decide
theorem test_sub_immediate : alu (.sub 3 1 (.imm (-1))) 5 0 clear = some (6, false, false, true, false) := by decide
/-- A16 and A17. -/
theorem test_mul_wraps : alu (.mul 3 1 (.reg 2)) 16 16 clear = some (0, true, false, true, true) := by decide
theorem test_mul_immediate : alu (.mul 3 1 (.imm (-1))) 2 0 clear = some (254, false, true, true, true) := by decide
/-- A20 and A27; the Carry that was set is cleared. -/
theorem test_div_clears_carry :
    alu (.div 3 1 (.reg 2)) 7 2 ⟨true, true, true, true⟩ = some (3, false, false, false, false) := by decide
theorem test_div_by_zero : faultOf (exec (.div 3 1 (.reg 2)) (at_ 0 9 0 clear [])) = some .divisionByZero := by decide
/-- A30 and A31. -/
theorem test_neg_of_128 : alu (.neg 3 (.reg 2)) 1 128 clear = some (128, false, true, true, true) := by decide
theorem test_neg_immediate : alu (.neg 3 (.imm (-8))) 1 0 clear = some (8, false, false, true, false) := by decide
/-- S2, S4, S9 and S12, with C, N and V kept. -/
theorem test_and_zero :
    alu (.and 3 1 (.imm (-16))) 0x0F 0 ⟨false, true, true, true⟩ = some (0, true, true, true, true) := by decide
theorem test_or : alu (.or 3 1 (.reg 2)) 0x0F 0x30 ⟨true, true, false, true⟩ = some (0x3F, false, false, true, true) := by decide
theorem test_xor : alu (.xor 3 1 (.imm (-1))) 0x5A 0 clear = some (0xA5, false, false, false, false) := by decide
theorem test_not : alu (.not 3 (.imm (-5))) 0x77 0 clear = some (0x04, false, false, false, false) := by decide
/-- S15 and S18. -/
theorem test_lsl : alu (.lsl 3 1 (.reg 2)) 0xFF 2 clear = some (0xFC, false, false, false, false) := by decide
theorem test_lsl_by_eight : alu (.lsl 3 1 (.reg 2)) 0x01 8 clear = some (0, true, false, false, false) := by decide
/-- S20 and S23. -/
theorem test_lsr : alu (.lsr 3 1 (.reg 2)) 0xFF 2 clear = some (0x3F, false, false, false, false) := by decide
theorem test_lsr_immediate : alu (.lsr 3 1 (.imm (-16))) 0xFF 0 clear = some (0, true, false, false, false) := by decide
/-- S27 and S31. -/
theorem test_asr : alu (.asr 3 1 (.reg 2)) 0x80 3 clear = some (0xF0, false, false, false, false) := by decide
theorem test_asr_immediate : alu (.asr 3 1 (.imm (-1))) 0x80 0 clear = some (0xFF, false, false, false, false) := by decide

/-! The examples of 44_branch.md R155 to R169, and target vectors B8 and B9. -/

theorem test_beq : goes (.beq (.imm (-3))) 5 0 ⟨true, false, false, false⟩ = some 3 ∧
    goes (.beq (.imm (-3))) 5 0 clear = some 6 := by decide
theorem test_bneq : goes (.bneq (.imm (-3))) 5 0 clear = some 3 := by decide
theorem test_blt : goes (.blt (.imm (-1))) 2 0 ⟨false, false, false, true⟩ = some 2 := by decide
theorem test_ble : goes (.ble (.reg 1)) 0 4 clear = some 5 ∧
    goes (.ble (.reg 1)) 0 4 ⟨true, false, true, false⟩ = some 1 := by decide
theorem test_bgt : goes (.bgt (.imm (-2))) 4 0 ⟨true, false, false, false⟩ = some 3 ∧
    goes (.bgt (.imm (-2))) 4 0 clear = some 5 := by decide
theorem test_bge : goes (.bge (.imm (-16))) 15 0 ⟨false, false, true, true⟩ = some 0 := by decide
theorem test_b : goes (.b (.imm (-1))) 6 0 clear = some 6 := by decide
theorem test_bcs : goes (.bcs (.imm (-4))) 9 0 ⟨false, true, false, false⟩ = some 6 := by decide
theorem test_bcc : goes (.bcc (.imm (-2))) 1 0 clear = some 0 := by decide
theorem test_bmi : goes (.bmi (.imm (-1))) 3 0 ⟨false, false, true, false⟩ = some 3 := by decide
theorem test_bpl : goes (.bpl (.reg 1)) 4 1 clear = some 6 := by decide
theorem test_bvs : goes (.bvs (.imm (-5))) 10 0 ⟨false, false, false, true⟩ = some 6 := by decide
theorem test_bvc : goes (.bvc (.imm (-1))) 0 0 clear = some 0 := by decide
theorem test_bhi : goes (.bhi (.reg 1)) 7 0 ⟨false, true, false, false⟩ = some 8 := by decide
theorem test_bls : goes (.bls (.imm (-2))) 3 0 clear = some 2 ∧
    goes (.bls (.imm (-2))) 3 0 ⟨false, true, false, false⟩ = some 4 := by decide
theorem test_branch_faults_at_the_branch :
    faultOf (exec (.b (.reg 1)) (at_ 14 1 0 clear [])) = some (.addressOutOfRange 16) ∧
    faultOf (exec (.b (.imm (-16))) (at_ 5 0 0 clear [])) = some (.addressOutOfRange (-10)) := by decide

/-- M1 (low byte only) and M5. -/
theorem test_ldr : seen (fun t => (t.reg 2, t.flags.z, t.flags.c, t.pc))
    (exec (.ldr 2 (.reg 1)) (at_ 1 4 0 ⟨true, true, false, false⟩ [(4, 0xABCD)])) = some (0xCD, false, true, 2) := by decide
theorem test_ldr_out_of_range :
    faultOf (exec (.ldr 2 (.reg 1)) (at_ 1 255 0 clear [])) = some (.addressOutOfRange 255) := by decide
/-- M3 (the upper byte is cleared) and M6 under `STR_DATA_FIELD = dest`. -/
theorem test_str : seen (fun t => (t.mem, t.pc)) (exec (.str 0 2 (.reg 1)) (at_ 2 4 5 clear [(4, 0xABCD)])) =
    some ([(4, 0x0005)], 3) := by decide
theorem test_str_dest_field :
    seen State.mem (exec (.str 2 1 (.reg 1))
      { at_ 2 6 3 clear [] with cfg := { Config.reference with strDataField := .dest } }) = some [(6, 0x0003)] := by decide

/-! ## Step, reset and run -/

/-- The first instruction after reset (E4): ADD r2, r0, #-16. -/
theorem test_first_step : seen (fun t => (t.reg 2, t.flags.n, t.flags.v, t.pc))
    (step (State.reset.withFetchWord 16 0x0A10)) = some (240, true, true, 1) := by decide
/-- N-1 and F-1: a fetch at `pc = MEM_SIZE`. -/
theorem test_fetch_fault : faultOf (step (at_ 16 0 0 clear [])) = some (.addressOutOfRange 16) := by decide
/-- E8. -/
theorem test_unknown_opcode : faultOf (step (State.reset.withFetchWord 16 0xF000)) = some (.unknownOpcode 30) := by decide
/-- R-3: an image longer than memory. -/
theorem test_construct_refuses_long_image :
    construct { Config.reference with memSize := 2 } [0, 0, 0] = none := by decide
/-- E8's DIV image: the error names cycle 1 and pc 1. -/
theorem test_run_error :
    ((construct Config.reference [0x2F1F, 0x27E0]).map fun s => (run 5 s).2) =
      some (.err ⟨.divisionByZero, 1, 1⟩) := by decide

/-! ## Witnesses: for each statement with hypotheses, something that meets them -/

/-- A state about to run `w` at `pc`. -/
def ready (pc : Nat) (w : Word) (x1 : Byte) (b : Option Nat) : State :=
  { at_ pc x1 5 clear [(pc, w)] with budget := b }

theorem witness_DecodeOfEncodeIsTheInstruction :
    defaultOpcodeMap.wf = true ∧ (Instr.str 7 6 (.imm (-16))).wf = true ∧ (Instr.add 7 6 (.imm (-1))).wf = true := by decide
theorem witness_EncodeOfDecodeKeepsTheUsedBits : dec 0x0A29 = some (.add 2 1 (.reg 1)) := by decide
theorem witness_UnusedBitsDoNotMatter : dec 0x6FE9 = some (.beq (.reg 1)) ∧
    (0x6801 : Word) &&& (Instr.beq (.reg 1)).usedBits = (0x6FE9 : Word) &&& (Instr.beq (.reg 1)).usedBits := by decide
theorem witness_OpcodeFieldAloneSelectsTheInstruction : defaultOpcodeMap.wf = true ∧
    defaultOpcodeMap.opcodeOf .str = (0xE800 : Word).extractLsb' 11 5 ∧
    ∀ m ∈ Mnemonic.all, defaultOpcodeMap.opcodeOf m ≠ (0xF000 : Word).extractLsb' 11 5 := by decide
/-- Another one-to-one map than the default. -/
theorem witness_ExactlyTwoOpcodesAreUnmapped :
    OpcodeMap.wf (defaultOpcodeMap.set 0 0b11111) = true ∧ defaultOpcodeMap.set 0 0b11111 ≠ defaultOpcodeMap := by decide
theorem witness_ImmediateIsBitsThreeToZeroMinusSixteen :
    (dec 0x0A10).bind Instr.src2? = some (.imm (-16)) ∧ (0x0A10 : Word).getLsbD 4 = true ∧
    (dec 0x0A1F).bind Instr.src2? = some (.imm (-1)) ∧ (0x0A1F : Word).getLsbD 4 = true ∧
    defaultOpcodeMap.wf = true := by decide
theorem witness_StepRunsTheDecodedInstruction :
    let s := ready 15 0x4000 0 none
    s.pc < s.cfg.memSize ∧ dec (s.word s.pc) = some (.xor 0 0 (.reg 0)) := by decide
theorem witness_StepRunsTheDecodedInstruction_in_a_run :
    let s := ready 15 0x4000 0 (some 1)
    s.pc < s.cfg.memSize ∧ dec (s.word s.pc) = some (.xor 0 0 (.reg 0)) ∧ s.budget = some (0 + 1) ∧
    (seen State.pc (exec (.xor 0 0 (.reg 0)) s)).isSome = true := by decide
theorem witness_StepRunsTheDecodedInstruction_fault :
    let s := ready 0 0x27C0 0 (some 1)
    s.pc < s.cfg.memSize ∧ dec (s.word s.pc) = some (.div 7 6 (.reg 0)) ∧ s.budget = some (0 + 1) ∧
    faultOf (exec (.div 7 6 (.reg 0)) s) = some .divisionByZero := by decide
theorem witness_FetchOutsideMemoryFaults :
    (ready 16 0 0 none).budget ≠ some 0 ∧ (ready 16 0 0 none).cfg.memSize ≤ (ready 16 0 0 none).pc ∧
    (ready 15 0 0 (some 1)).budget ≠ some 0 ∧ (ready 15 0 0 (some 1)).pc < (ready 15 0 0 (some 1)).cfg.memSize := by decide
theorem witness_UnmappedOpcodeFaults :
    let s := ready 15 0xF7FF 0 none
    s.budget ≠ some 0 ∧ s.pc < s.cfg.memSize ∧
    ∀ m ∈ Mnemonic.all, s.cfg.opcodeMap.opcodeOf m ≠ opcodeField (s.word s.pc) := by decide
theorem witness_UnmappedOpcodeFaults_mapped :
    let s := ready 15 0xEFFF 0 none
    s.budget ≠ some 0 ∧ s.pc < s.cfg.memSize ∧ s.cfg.opcodeMap.wf = true ∧
    s.cfg.opcodeMap.opcodeOf .str = opcodeField (s.word s.pc) := by decide
theorem witness_BudgetCountsCompletedCycles :
    (ready 15 0x4000 0 (some 1)).budget = some (0 + 1) ∧ (seen State.pc (cycle (ready 15 0x4000 0 (some 1)))).isSome = true ∧
    (ready 0 0xF000 0 (some 1)).budget = some (0 + 1) ∧ (faultOf (cycle (ready 0 0xF000 0 (some 1)))).isSome = true ∧
    (ready 0 0xF000 0 (some 0)).budget = some 0 := by decide
/-- A state for each of the three ordered checks, all of which fault. -/
theorem witness_StepFaultsExactlyAtTheOrderedChecks :
    faultOf (step (ready 16 0xF000 0 none)) = some (.addressOutOfRange 16) ∧
    faultOf (step (ready 15 0xF000 0 none)) = some (.unknownOpcode 30) ∧
    faultOf (step (ready 15 0xE21F 0 none)) = some (.addressOutOfRange (-1)) ∧
    (ready 15 0xE21F 0 none).budget ≠ some 0 := by decide
theorem witness_ConstructionGivesTheCreationState :
    ([1, 2] : List Word).length ≤ ({ Config.reference with memSize := 2 } : Config).memSize ∧
    ({ Config.reference with memSize := 1 } : Config).memSize < ([1, 2] : List Word).length := by decide
theorem witness_EveryRegisterIsZeroAtCreation : (construct Config.reference [0x2918]).isSome = true := by decide
theorem witness_SecondOperandAndItsBytePattern : (Src2.imm (-16)).wf = true ∧ (Src2.imm (-1)).wf = true := by decide
theorem witness_DivWritesQuotientOrFaults :
    (at_ 0 9 0 clear []).operandY8 (.reg 2) = 0 ∧ (at_ 0 9 1 clear []).operandY8 (.reg 2) ≠ 0 := by decide
/-- Results 0, 127 and 128. -/
theorem witness_OverflowIsNegativeDiffersFromZero :
    Instr.isArithmetic (.add 3 1 (.reg 2)) = true ∧ Instr.resultReg? (.add 3 1 (.reg 2)) = some 3 := by decide
theorem witness_OverflowIsNegativeDiffersFromZero_zero :
    alu (.add 3 1 (.reg 2)) 0 0 clear = some (0, true, false, false, true) := by decide
theorem witness_OverflowIsNegativeDiffersFromZero_positive :
    alu (.add 3 1 (.reg 2)) 126 1 clear = some (127, false, false, false, false) := by decide
theorem witness_OverflowIsNegativeDiffersFromZero_negative :
    alu (.add 3 1 (.reg 2)) 127 1 clear = some (128, false, true, false, true) := by decide
theorem witness_DivisionByZeroIsRaisedOnlyByDivByZero :
    (Instr.div 3 1 (.reg 2)).wf = true ∧ (at_ 0 9 0 clear []).operandY (.reg 2) = 0 := by decide
/-- The word of DIV r7, r6, r0 at the last address. -/
theorem witness_DivisionByZeroIsRaisedOnlyByDivByZero_run :
    let s := ready 15 0x27C0 0 none
    s.pc < s.cfg.memSize ∧ dec (s.word s.pc) = some (.div 7 6 (.reg 0)) ∧ s.operandY (.reg 0) = 0 := by decide
theorem witness_ImmediateShiftsSaturate : (Src2.imm (-16)).wf = true ∧ (Src2.imm (-1)).wf = true := by decide
/-- The branch conditions hold and fail; the target is in range at 0 and 15 and out of range at -1 and 16. -/
theorem witness_BranchesGoWhereTheConditionSays :
    (at_ 0 0 0 clear []).flags.z = false ∧ (at_ 0 0 0 ⟨true, true, true, true⟩ []).flags.z = true ∧
    (at_ 15 0 0 clear []).inRange (((15 : Nat) : Int) + 1 + (at_ 15 0 0 clear []).operandY (.imm (-16))) ∧
    (at_ 14 0 0 clear []).inRange (((14 : Nat) : Int) + 1 + (at_ 14 0 0 clear []).operandY (.reg 1)) ∧
    ¬ (at_ 5 0 0 clear []).inRange (((5 : Nat) : Int) + 1 + (at_ 5 0 0 clear []).operandY (.imm (-7))) ∧
    ¬ (at_ 14 1 0 clear []).inRange (((14 : Nat) : Int) + 1 + (at_ 14 1 0 clear []).operandY (.reg 1)) := by decide
theorem witness_BranchesAreTakenExactlyOnTheTablesCondition :
    (at_ 5 0 0 clear []).operandY (.imm (-1)) ≠ 0 ∧ goes (.beq (.imm (-1))) 5 0 clear = some 6 ∧
    goes (.beq (.imm (-1))) 5 0 ⟨true, false, false, false⟩ = some 5 := by decide
theorem witness_BranchesAreTakenExactlyOnTheTablesCondition_fault :
    faultOf (exec (.bneq (.imm (-7))) (at_ 5 0 0 clear [])) = some (.addressOutOfRange (-1)) := by decide
/-- Two states that differ in registers the branch does not read, and in memory. -/
theorem witness_BranchesReadFlagsAndWriteOnlyThePc :
    Instr.branchRow? (at_ 5 3 0 clear []).flags (.bneq (.reg 1)) = some (.reg 1, true) ∧
    (at_ 5 3 9 clear [(4, 1)]).flags = (at_ 5 3 0 clear []).flags ∧ (at_ 5 3 9 clear [(4, 1)]).reg 1 = (at_ 5 3 0 clear []).reg 1 ∧
    goes (.bneq (.reg 1)) 5 3 clear = some 9 ∧ dec 0x7001 = some (.bneq (.reg 1)) ∧
    (0x77E1 : Word) &&& 0xF81F = (0x7001 : Word) &&& 0xF81F := by decide
/-- An arithmetic result of 0, 1, 127 and 128 with a branch target in range after it. -/
theorem witness_SignedBranchesAfterArithmetic :
    seen (fun t => (t.reg 3, decide (t.inRange ((t.pc : Int) + 1 + t.operandY (.imm (-1))))))
      (exec (.sub 3 1 (.reg 2)) (at_ 0 5 5 clear [])) = some (0, true) ∧
    seen (fun t => t.reg 3) (exec (.sub 3 1 (.reg 2)) (at_ 0 6 5 clear [])) = some 1 ∧
    seen (fun t => t.reg 3) (exec (.sub 3 1 (.reg 2)) (at_ 0 132 5 clear [])) = some 127 ∧
    seen (fun t => t.reg 3) (exec (.sub 3 1 (.reg 2)) (at_ 0 133 5 clear [])) = some 128 := by decide
theorem witness_LdrLoadsTheLowByte :
    (at_ 0 0 0 clear []).inRange ((at_ 0 0 0 clear []).operandY (.reg 1)) ∧
    (at_ 0 15 0 clear []).inRange ((at_ 0 15 0 clear []).operandY (.reg 1)) ∧
    ¬ (at_ 0 16 0 clear []).inRange ((at_ 0 16 0 clear []).operandY (.reg 1)) ∧
    ¬ (at_ 0 0 0 clear []).inRange ((at_ 0 0 0 clear []).operandY (.imm (-1))) := by decide
theorem witness_StrStoresTheDataRegister :
    (at_ 0 15 5 clear [(4, 1), (15, 0xABCD)]).mem.wf ∧
    (at_ 0 15 5 clear [(4, 1), (15, 0xABCD)]).inRange ((at_ 0 15 5 clear [(4, 1), (15, 0xABCD)]).operandY (.reg 1)) ∧
    (at_ 0 15 5 clear []).cfg.strDataField = .src1 ∧
    ¬ (at_ 0 16 5 clear []).inRange ((at_ 0 16 5 clear []).operandY (.reg 1)) := by decide
/-- The same with the other two values of `STR_DATA_FIELD`. -/
theorem witness_StrStoresTheDataRegister_other_fields :
    seen State.mem (exec (.str 2 3 (.reg 1))
      { at_ 0 15 5 clear [] with cfg := { Config.reference with strDataField := .dest } }) = some [(15, 5)] ∧
    seen State.mem (exec (.str 2 3 (.reg 1))
      { at_ 0 15 5 clear [] with cfg := { Config.reference with strDataField := .src2 } }) = some [(15, 15)] := by decide
theorem witness_ImmediateAddressAlwaysFaults : (Src2.imm (-16)).wf = true ∧ (Src2.imm (-1)).wf = true := by decide
/-- The load may follow the store directly: the state after the store is one the statement speaks of. -/
theorem witness_StoreThenLoadReturnsTheRegister :
    (at_ 0 15 5 clear []).mem.wf ∧
    seen (fun t => decide (t.operandY (.reg 1) = (at_ 0 15 5 clear []).operandY (.reg 1) ∧ t.cfg = Config.reference))
      (exec (.str 0 2 (.reg 1)) (at_ 0 15 5 clear [])) = some true := by decide
/-- STR r2, r1 at pc 14 with x[1] = 15. -/
theorem witness_StoredWordIsTheNextOneFetched :
    let s := ready 14 0xE841 15 none
    s.mem.wf ∧ s.budget ≠ some 0 ∧ s.pc < s.cfg.memSize ∧ dec (s.word s.pc) = some (.str 0 2 (.reg 1)) ∧
    s.operandY (.reg 1) = (s.pc : Int) + 1 ∧ seen State.pc (step s) = some 15 := by decide
theorem witness_AWordHoldsTheLastStoreOrItsCreationValue :
    let s := ready 0 0xE841 7 none
    s.mem.wf ∧ dec (s.word s.pc) = some (.str 0 2 (.reg 1)) ∧ s.operandY (.reg 1) = ((7 : Nat) : Int) ∧
    seen State.pc (cycle s) = some 1 := by decide
/-- One cycle that stores nothing: the step of `CompletesNotStoring` can be made. -/
theorem witness_AWordHoldsTheLastStoreOrItsCreationValue_no_store :
    ∃ t, CompletesNotStoring 15 1 (ready 0 0x4000 0 none) t := by
  refine ⟨_, .more 0 _ _ _ ?_ rfl (.none _)⟩
  rintro ⟨d, r, y, h, -⟩
  have h' : dec 0x4000 = some (.str d r y) := congrArg Except.toOption h
  rw [show dec 0x4000 = some (.xor 0 0 (.reg 0)) by decide] at h'
  cases h'
theorem witness_AWordHoldsTheLastStoreOrItsCreationValue_creation :
    (construct Config.reference [0x4000]).isSome = true ∧ 15 < Config.reference.memSize := by decide
theorem witness_ZeroFlagIsResultIsZero :
    Instr.resultReg? (.ldr 2 (.reg 1)) = some 2 ∧
    seen (fun t => (t.reg 2, t.flags.z)) (exec (.ldr 2 (.reg 1)) (at_ 0 4 9 clear [(4, 0x0100)])) = some (0, true) := by decide
/-- A completed instruction of each kind: a result, none, a store. -/
theorem witness_UnnamedStateKeepsItsValue :
    seen State.pc (exec (.asr 3 1 (.reg 2)) (at_ 0 4 9 clear [])) = some 1 ∧ seen State.pc (exec .nop (at_ 0 4 9 clear [])) = some 1 ∧
    seen State.pc (exec (.str 0 2 (.reg 1)) (at_ 0 4 9 clear [])) = some 1 := by decide
/-- A state that meets every invariant and steps: by a store, by a branch to the last word, by an arithmetic
instruction into the end of memory, and by the return of an exhausted run. -/
theorem witness_step_invariants :
    (ready 14 0xE841 15 none).Inv ∧ seen State.pc (step (ready 14 0xE841 15 none)) = some 15 ∧
    (ready 13 0x9801 1 none).Inv ∧ seen State.pc (step (ready 13 0x9801 1 none)) = some 15 ∧
    (ready 15 0x2918 0 (some 1)).Inv ∧ seen State.pc (step (ready 15 0x2918 0 (some 1))) = some 16 ∧
    seen State.budget (step (ready 15 0x2918 0 (some 0))) = some none := by
  refine ⟨?_, by decide, ?_, by decide, ?_, by decide, by decide⟩ <;>
    exact ⟨by decide, ⟨by decide, by decide⟩, by unfold State.PcOk; decide, by unfold State.FlagsOk; decide⟩
theorem witness_EveryReachableStateMeetsTheInvariants :
    Config.reference.wf = true ∧ (construct Config.reference [0x2918, 0x9801]).isSome = true := by decide
/-- A run that completes, one that ends in a fatal error, and the idle start. -/
theorem witness_runs :
    (run 1 (ready 0 0x2918 0 none)).2 = .ok ∧ (run 2 (ready 0 0x27C0 0 none)).2 = .err ⟨.divisionByZero, 0, 0⟩ ∧
    (ready 0 0x2918 0 none).budget = none := by decide

end Sys2Proof.Tests
end

section
namespace Sys2Proof.Machine

/-- Construction succeeds exactly when the image fits, and then gives the reset state with the caller's parameters
and image (70_reset_and_hazards.md R220, R221). -/
theorem construct_eq_some {cfg : Config} {image : List Word} {s : State} :
    construct cfg image = some s ↔
      image.length ≤ cfg.memSize ∧ s = { State.reset with cfg := cfg, mem := Memory.ofWordsAt 0 image } := by
  unfold construct
  split
  case isTrue hfits => simp [hfits, State.reset, eq_comm]
  case isFalse hlong => simp [hlong]

/-- The creation state has the registers of the reset state, whatever the parameters and the image. -/
theorem reg_of_construct {cfg : Config} {image : List Word} {s : State} (h : construct cfg image = some s) (r : Reg) :
    s.reg r = State.reset.reg r := by
  obtain ⟨-, rfl⟩ := construct_eq_some.mp h
  rfl

/-- The reset state is the engine built with the reference parameters and an empty image. -/
theorem construct_reference_nil : construct Config.reference [] = some State.reset :=
  construct_eq_some.mpr ⟨Nat.zero_le _, rfl⟩

/-- Settles O16: a constructed engine has the registers of the reset state, which are 0. -/
theorem everyRegisterIsZeroAtCreation : Obligations.EveryRegisterIsZeroAtCreation :=
  ⟨fun _ _ _ h r => (reg_of_construct h r).trans (reset_reg r), reset_reg, construct_reference_nil⟩

end Sys2Proof.Machine
end

section
namespace Sys2Proof

/-! ## The fields of a word as arithmetic on it (30_encoding.md R56) -/

theorem toNat_opcodeField (w : Word) : (opcodeField w).toNat = w.toNat / 2048 := by
  have hw : w.toNat < 2 ^ 16 := w.isLt
  rw [opcodeField, BitVec.extractLsb'_toNat, Nat.shiftRight_eq_div_pow]
  omega

theorem val_destField (w : Word) : (destField w).val = w.toNat / 256 % 8 := by
  rw [destField, BitVec.val_toFin, BitVec.extractLsb'_toNat, Nat.shiftRight_eq_div_pow]

theorem val_src1Field (w : Word) : (src1Field w).val = w.toNat / 32 % 8 := by
  rw [src1Field, BitVec.val_toFin, BitVec.extractLsb'_toNat, Nat.shiftRight_eq_div_pow]

theorem immFlag_eq_true_iff (w : Word) : immFlag w = true ↔ w.toNat / 16 % 2 = 1 := by
  rw [immFlag, BitVec.getLsbD, Nat.testBit_eq_decide_div_mod_eq, decide_eq_true_iff]

theorem toNat_src2Field (w : Word) : (src2Field w).toNat = w.toNat % 32 := by
  rw [src2Field, BitVec.extractLsb'_toNat, Nat.shiftRight_zero]

/-- Settles O7: each field's bits give its value, and the imm-flag is the src2-field's top bit. -/
theorem fieldsLieWhereTheLayoutSays : Obligations.FieldsLieWhereTheLayoutSays := fun w =>
  ⟨toNat_opcodeField w, val_destField w, val_src1Field w, immFlag_eq_true_iff w, toNat_src2Field w,
    (immFlag_eq w).symm⟩

/-! ## The second operand of a decoded word (30_encoding.md R58, R61) -/

/-- Every instruction but NOP has the second operand it is given (30_encoding.md R61). -/
theorem src2?_withOperands (d a : Reg) (y : Src2) (m : Mnemonic) :
    (m.withOperands d a y).src2? = if m = .nop then none else some y := by
  cases m <;> rfl

/-- The second operand of a decoded instruction is the one its word names. -/
theorem src2?_of_decode {map : OpcodeMap} {w : Word} {i : Instr} {y : Src2} (h : decode map w = .ok i)
    (hy : i.src2? = some y) : y = src2Of w := by
  obtain ⟨-, hi⟩ := decode_ok h
  rw [hi, src2?_withOperands] at hy
  split at hy
  · cases hy
  · exact (Option.some.inj hy).symm

theorem src2Of_of_immFlag {w : Word} (h : immFlag w = true) : src2Of w = .imm (sext5 (src2Field w)) := if_pos h

theorem src2Of_of_not_immFlag {w : Word} (h : ¬ immFlag w = true) : src2Of w = .reg (src2RegField (src2Field w)) :=
  if_neg h

/-- With the imm-flag set, the sign extension of the src2-field is its low four bits minus 16 (30_encoding.md R58). -/
theorem sext5_src2Field_of_immFlag {w : Word} (h : immFlag w = true) :
    sext5 (src2Field w) = ((w.extractLsb' 0 4).toNat : Int) - 16 := by
  rw [immFlag_eq_true_iff] at h
  have hlow : (w.extractLsb' 0 4).toNat = w.toNat % 16 := by
    rw [BitVec.extractLsb'_toNat, Nat.shiftRight_zero]
  rw [sext5, BitVec.toInt_eq_toNat_cond, toNat_src2Field, hlow]
  omega

/-- The second operand a word names is always one that can be encoded (30_encoding.md R58). -/
theorem src2Of_wf (w : Word) : (src2Of w).wf = true := by
  by_cases h : immFlag w = true
  · have hlow : (w.extractLsb' 0 4).toNat < 2 ^ 4 := BitVec.isLt _
    rw [src2Of_of_immFlag h, sext5_src2Field_of_immFlag h, Src2.wf, Bool.and_eq_true, decide_eq_true_iff,
      decide_eq_true_iff]
    omega
  · rw [src2Of_of_not_immFlag h, Src2.wf]

/-- A word packed with an encodable operand's field names that operand. -/
theorem src2Of_packFields_field (op : Opcode) (d a : Reg) {y : Src2} (h : y.wf = true) :
    src2Of (packFields op d a y.field) = y := by
  rw [src2Of_eq, src2Field_packFields]
  cases y with
  | reg r =>
    obtain ⟨hflag, hreg⟩ := field_reg r
    rw [hflag, if_neg Bool.false_ne_true, hreg]
  | imm k =>
    obtain ⟨hflag, himm⟩ := field_imm h
    rw [if_pos hflag, himm]

/-- A word packed from a mnemonic's opcode and the fields of its operands decodes to the instruction with those
operands (30_encoding.md R60, R66). -/
theorem decode_packFields {map : OpcodeMap} (hmap : map.wf = true) (m : Mnemonic) (d a : Reg) {y : Src2}
    (hy : y.wf = true) :
    decode map (packFields (map.opcodeOf m) d a y.field) = .ok (m.withOperands d a y) := by
  simp [decode, OpcodeMap.mnemonicOf?_opcodeOf hmap, src2Of_packFields_field _ _ _ hy]

/-- An operand occurs in some decoded word exactly when it can be encoded: B is one instruction that carries it. -/
theorem exists_decode_src2?_iff {map : OpcodeMap} (hmap : map.wf = true) (y : Src2) :
    (∃ w i, decode map w = .ok i ∧ i.src2? = some y) ↔ y.wf = true := by
  constructor
  · rintro ⟨w, i, hi, hy⟩
    exact src2?_of_decode hi hy ▸ src2Of_wf w
  · exact fun hy => ⟨_, .b y, decode_packFields hmap .b 0 0 hy, rfl⟩

/-- Settles O6: the operand of a word with the imm-flag set is its sign-extended src2-field, and the operands that
occur are the encodable ones, whose immediates are -16 to -1. -/
theorem immediateIsBitsThreeToZeroMinusSixteen : Obligations.ImmediateIsBitsThreeToZeroMinusSixteen := by
  constructor
  · intro map w i y hi hy hflag
    have hsrc2 : y = .imm (sext5 (src2Field w)) := (src2?_of_decode hi hy).trans (src2Of_of_immFlag hflag)
    exact ⟨hsrc2, hsrc2.trans (congrArg Src2.imm (sext5_src2Field_of_immFlag hflag))⟩
  · intro map hmap k
    rw [exists_decode_src2?_iff hmap, Src2.wf, Bool.and_eq_true, decide_eq_true_iff, decide_eq_true_iff]

end Sys2Proof
end

section
namespace Sys2Proof.Machine

/-! ## A fatal error of the cycle (40_cycle.md R81, R82, R87) -/

/-- Unless the run is at its end, where nothing is fetched, a fatal error of the cycle is the step's. -/
theorem step_of_cycle_fault {s : State} {f : Fault} (hbudget : s.budget ≠ some 0) (h : cycle s = .fault f) :
    step s = .fault f := by
  cases hb : s.budget with
  | none => rw [step_idle hb, h]
  | some k =>
    cases k with
    | zero => exact absurd hb hbudget
    | succ k => rw [step_running hb, h, spend_fault]

/-- A word whose opcode the map gives no mnemonic ends the cycle with UnknownOpcode (40_cycle.md R82). -/
theorem cycle_unmapped {s : State} (hpc : s.pc < s.cfg.memSize)
    (h : ∀ m, s.cfg.opcodeMap.opcodeOf m ≠ opcodeField (s.word s.pc)) :
    cycle s = .fault (.unknownOpcode (opcodeField (s.word s.pc))) :=
  cycle_undecoded hpc (decode_error.mpr ⟨rfl, h⟩)

/-- A word with the opcode a one-to-one map gives a mnemonic decodes to it, with the operands of the word's
fields (30_encoding.md R60, R61). -/
theorem decode_of_opcodeOf {map : OpcodeMap} (hmap : map.wf = true) {m : Mnemonic} {w : Word}
    (h : map.opcodeOf m = opcodeField w) :
    decode map w = .ok (m.withOperands (destField w) (src1Field w) (src2Of w)) := by
  rw [decode, ← h, OpcodeMap.mnemonicOf?_opcodeOf hmap]

/-- Settles O11: the lookup of an unmapped opcode finds nothing, and that of a one-to-one map inverts the map. -/
theorem unmappedOpcodeFaults : Obligations.UnmappedOpcodeFaults := fun _ hbudget hpc =>
  ⟨fun h => step_of_cycle_fault hbudget (cycle_unmapped hpc h), fun _ hmap h => decode_of_opcodeOf hmap h⟩

/-- Settles O12: by the equation of the step in each case of the budget. -/
theorem budgetCountsCompletedCycles : Obligations.BudgetCountsCompletedCycles := by
  refine fun s => ⟨fun k t hb hc => ?completed, fun k f hb hc => ?fatal, step_exhausted⟩
  case completed =>
    exact ⟨t.setBudget (some k), by rw [step_running hb, hc, spend_next], rfl, rfl, rfl, rfl, rfl, rfl⟩
  case fatal => rw [step_running hb, hc, spend_fault]

/-! ## The loop of a run (40_cycle.md R90) -/

section RunLoop
variable (k n : Nat) {s t : State}

@[simp] theorem runLoop_zero (s : State) : runLoop k 0 s = (s, .ok) := rfl

theorem runLoop_next (h : cycle s = .next t) : runLoop k (n + 1) s = runLoop (k + 1) n t := by
  rw [runLoop, h]

theorem runLoop_fault {f : Fault} (h : cycle s = .fault f) :
    runLoop k (n + 1) s = (s, .err { fault := f, cycle := k, pc := s.pc }) := by
  rw [runLoop, h]

theorem runLoop_refused {r : Refusal} (h : cycle s = .refused r) : runLoop k (n + 1) s = (s, .refused r) := by
  rw [runLoop, h]
end RunLoop

theorem completes_zero {s t : State} : Completes 0 s t ↔ s = t :=
  ⟨fun h => by cases h; rfl, fun h => h ▸ .none s⟩

theorem completes_succ {n : Nat} {s u : State} :
    Completes (n + 1) s u ↔ ∃ t, cycle s = .next t ∧ Completes n t u :=
  ⟨fun h => by cases h with | more _ _ t _ hc ht => exact ⟨t, hc, ht⟩, fun ⟨t, hc, ht⟩ => .more n s t u hc ht⟩

/-- The loop returns Ok exactly when all the cycles it has to go complete. -/
theorem runLoop_eq_ok {k n : Nat} {s t : State} : runLoop k n s = (t, .ok) ↔ Completes n s t := by
  induction n generalizing k s with
  | zero => simp [completes_zero]
  | succ n ih =>
    rw [completes_succ]
    cases hc : cycle s with
    | next u => simp [runLoop_next k n hc, ih]
    | fault f => simp [runLoop_fault k n hc]
    | refused r => simp [runLoop_refused k n hc]

/-- The loop returns an error exactly when `j` cycles complete, fewer than it has to go, and the next one is fatal.
The error counts the `k` cycles completed before the loop as well. -/
theorem runLoop_eq_err {k n : Nat} {s t : State} {e : EngineError} :
    runLoop k n s = (t, .err e) ↔
      ∃ j < n, e.cycle = k + j ∧ Completes j s t ∧ cycle t = .fault e.fault ∧ e.pc = t.pc := by
  induction n generalizing k s with
  | zero => simp
  | succ n ih =>
    -- `j = 0` needs this first cycle to be the fatal one.
    have hstart (hlive : cycle s ≠ .fault e.fault) :
        ¬ (e.cycle = k + 0 ∧ s = t ∧ cycle t = .fault e.fault ∧ e.pc = t.pc) := by
      rintro ⟨-, rfl, hf, -⟩
      exact hlive hf
    rw [Nat.exists_lt_succ_left, completes_zero]
    simp only [completes_succ]
    cases hc : cycle s with
    | next u =>
      simp only [runLoop_next k n hc, ih, hstart (by simp [hc]), false_or, Host.Outcome.next.injEq, exists_eq_left',
        Nat.add_assoc, Nat.add_comm 1]
    | fault f =>
      simp only [runLoop_fault k n hc, Prod.mk.injEq, RunResult.err.injEq, reduceCtorEq, false_and, and_false,
        exists_false, or_false]
      constructor
      · rintro ⟨rfl, rfl⟩
        exact ⟨rfl, rfl, hc, rfl⟩
      · rintro ⟨hk, rfl, hf, hpc⟩
        cases hc.symm.trans hf
        exact ⟨rfl, by rw [← hpc, ← Nat.add_zero k, ← hk]⟩
    | refused r =>
      simp only [runLoop_refused k n hc, hstart (by simp [hc]), Prod.mk.injEq, reduceCtorEq, false_and, and_false,
        exists_false, or_self]

/-- Settles O50: the loop's two characterisations, started with no cycle completed. -/
theorem runExecutesCyclesUntilAFatalError : Obligations.RunExecutesCyclesUntilAFatalError := by
  refine fun n s t => ⟨runLoop_eq_ok, fun e => runLoop_eq_err.trans ?_⟩
  simp

/-- Settles O10: a fetch outside memory faults, which is the step's fault and ends a run in its first cycle. -/
theorem fetchOutsideMemoryFaults : Obligations.FetchOutsideMemoryFaults := by
  refine fun s hbudget => ⟨fun hpc => ⟨step_of_cycle_fault hbudget (cycle_outside hpc), fun n => ?_⟩, fetch_inside⟩
  rw [run, runLoop_fault 0 n (cycle_outside hpc)]

/-! ## The frame of every instruction (40_cycle.md R88) -/

theorem arithmetic_reg_other (s : State) {d r : Reg} (u : Int) (c : Int → Bool) (h : r ≠ d) :
    (s.arithmetic d u c).reg r = s.reg r := by
  rw [arithmetic_reg, if_neg h]

theorem logical_reg_other (s : State) {d r : Reg} (v : Byte) (h : r ≠ d) : (s.logical d v).reg r = s.reg r := by
  rw [logical_reg, if_neg h]

/-- A store at an address in range leaves every other word alone (20_memory.md R43). -/
theorem read_write_inRange_other {s : State} {y : Int} (hy : s.inRange y) {a : Nat} (h : y ≠ (a : Int)) (w : Word) :
    (s.mem.write y.toNat w).read a = s.word a := by
  obtain ⟨hnonneg, -⟩ := hy
  exact Memory.read_write_other s.mem w (by omega)

/-- Settles O43: each of the four shapes a completed instruction can have keeps what its rule does not name. -/
theorem unnamedStateKeepsItsValue : Obligations.UnnamedStateKeepsItsValue := by
  intro i s t h
  cases exec_next h with
  | arithmetic d u c hres harith _ =>
    exact ⟨fun r hr => arithmetic_reg_other s u c fun e => hr (e ▸ hres), fun e => by simp [hres] at e,
      fun e => by simp [harith] at e, fun _ _ => rfl, rfl, rfl⟩
  | logical d v hres _ _ =>
    exact ⟨fun r hr => logical_reg_other s v fun e => hr (e ▸ hres), fun e => by simp [hres] at e,
      fun _ => ⟨rfl, rfl, rfl⟩, fun _ _ => rfl, rfl, rfl⟩
  | jump p _ _ _ _ =>
    exact ⟨fun _ _ => rfl, fun _ => rfl, fun _ => ⟨rfl, rfl, rfl⟩, fun _ _ => rfl, rfl, rfl⟩
  | store d a y hi hy =>
    subst hi
    exact ⟨fun _ _ => rfl, fun _ => rfl, fun _ => ⟨rfl, rfl, rfl⟩,
      fun b hb => read_write_inRange_other hy (fun e => hb (congrArg some e)) _, rfl, rfl⟩

end Sys2Proof.Machine
end

section
namespace Sys2Proof.Machine

/-! ## Zero after each result shape (42_arithmetic.md R106) -/

theorem arithmetic_reg_self (s : State) (d : Reg) (u : Int) (c : Int → Bool) :
    (s.arithmetic d u c).reg d = as8 u := by
  rw [arithmetic_reg, if_pos rfl]

theorem logical_reg_self (s : State) (d : Reg) (v : Byte) : (s.logical d v).reg d = v := by
  rw [logical_reg, if_pos rfl]

/-- An arithmetic result's Zero speaks of the 8 bits written, not of the unbounded result. -/
theorem arithmetic_z_eq_reg (s : State) (d : Reg) (u : Int) (c : Int → Bool) :
    (s.arithmetic d u c).flags.z = ((s.arithmetic d u c).reg d == 0) := by
  rw [arithmetic_flags, arithmetic_reg_self, arithFlags, zeroFlag]

theorem logical_z_eq_reg (s : State) (d : Reg) (v : Byte) :
    (s.logical d v).flags.z = ((s.logical d v).reg d == 0) := by
  rw [logical_z, logical_reg_self, zeroFlag]

/-- Settles O42: of the four shapes a completed instruction can have, the two that write a register write Zero from
the same value; the other two have no result register. -/
theorem zeroFlagIsResultIsZero : Obligations.ZeroFlagIsResultIsZero := by
  intro i d s t hd h
  cases exec_next h with
  | arithmetic d' u c hres _ _ =>
    obtain rfl : d' = d := Option.some.inj (hres.symm.trans hd)
    exact arithmetic_z_eq_reg s d' u c
  | logical d' v hres _ _ =>
    obtain rfl : d' = d := Option.some.inj (hres.symm.trans hd)
    exact logical_z_eq_reg s d' v
  | jump p hnone _ _ _ => cases hnone.symm.trans hd
  | store a x y hi _ =>
    subst hi
    cases hd

end Sys2Proof.Machine
end

section
namespace Sys2Proof.Machine

/-! ## The logical/shift result shape (43_logical_shift.md R130) -/

/-- The logical result shape names `x[d]`, the flags and the pc, and nothing else. -/
theorem onlyRegAndFlags_logical (d : Reg) (s : State) (v : Byte) : OnlyRegAndFlags d s (s.logical d v) :=
  ⟨fun _ hr => logical_reg_other s v hr, logical_word s d v, logical_pc s d v, logical_cfg s d v, logical_budget s d v⟩

/-- Each logical or shift instruction completes in the logical result shape, with its own result
(43_logical_shift.md R132 to R138). -/
theorem exec_eq_logical {d a : Reg} {y : Src2} (s : State) {i : Instr}
    (hi : i ∈ [Instr.and d a y, .or d a y, .xor d a y, .not d y, .lsl d a y, .lsr d a y, .asr d a y]) :
    ∃ v, exec i s = .next (s.logical d v) := by
  simp only [List.mem_cons, List.not_mem_nil, or_false] at hi
  obtain rfl | rfl | rfl | rfl | rfl | rfl | rfl := hi
  · exact ⟨s.operandX a &&& s.operandY8 y, rfl⟩
  · exact ⟨s.operandX a ||| s.operandY8 y, rfl⟩
  · exact ⟨s.operandX a ^^^ s.operandY8 y, rfl⟩
  · exact ⟨~~~ s.operandY8 y, rfl⟩
  · exact ⟨shiftLeft (s.operandX a) (s.operandY8 y), rfl⟩
  · exact ⟨shiftRight (s.operandX a) (s.operandY8 y), rfl⟩
  · exact ⟨shiftRightSigned (s.operandX a) (s.operandY8 y), rfl⟩

/-- Settles O29: all seven complete in the one result shape, which sets Zero from the register it writes and keeps
the other three flags. -/
theorem logicalInstructionsWriteDestAndZeroOnly : Obligations.LogicalInstructionsWriteDestAndZeroOnly := by
  intro d a y s i hi
  obtain ⟨v, hexec⟩ := exec_eq_logical s hi
  exact ⟨s.logical d v, hexec, logical_z_eq_reg s d v, logical_c s d v, logical_n s d v, logical_v s d v,
    onlyRegAndFlags_logical d s v⟩

end Sys2Proof.Machine
end

section
namespace Sys2Proof

/-! ## Acceptance by decode, and the fields other than `dest` and `src1` (30_encoding.md R56, R60) -/

/-- An accepted word: the mnemonic the map finds for its opcode, with the operands of its fields. -/
theorem decode_eq_ok_iff {map : OpcodeMap} {w : Word} {i : Instr} :
    decode map w = .ok i ↔
      ∃ m, map.mnemonicOf? (opcodeField w) = some m ∧
        m.withOperands (destField w) (src1Field w) (src2Of w) = i := by
  rw [decode]
  cases map.mnemonicOf? (opcodeField w) <;> simp

/-- Bits 15:11 survive the mask that clears `dest` and `src1`. -/
theorem opcodeField_and_0xF81F (w : Word) : opcodeField (w &&& 0xF81F) = opcodeField w := by
  rw [opcodeField, BitVec.extractLsb'_and]
  exact BitVec.and_allOnes

/-- Bits 4:0 survive the mask that clears `dest` and `src1`. -/
theorem src2Field_and_0xF81F (w : Word) : src2Field (w &&& 0xF81F) = src2Field w := by
  rw [src2Field, BitVec.extractLsb'_and]
  exact BitVec.and_allOnes

end Sys2Proof
end

section
namespace Sys2Proof.Machine

/-! ## Where a branch goes, as a function of what it reads (44_branch.md R150 to R153) -/

/-- The next pc or the fault of a branch, from its condition, its own address, `MEM_SIZE` and its displacement alone
(44_branch.md R150, R151). -/
def branchPc (taken : Bool) (pc memSize : Nat) (y : Int) : Except Fault Nat :=
  if taken then
    if 0 ≤ (pc : Int) + 1 + y ∧ (pc : Int) + 1 + y < memSize then .ok ((pc : Int) + 1 + y).toNat
    else .error (.addressOutOfRange ((pc : Int) + 1 + y))
  else .ok (pc + 1)

/-- A branch is `branchPc` and the write of the pc. -/
theorem branch_eq_commit_branchPc (taken : Bool) (y : Src2) (s : State) :
    branch taken y s = commit ((branchPc taken s.pc s.cfg.memSize (s.operandY y)).map s.setPc) := by
  rw [branch_eq, State.branchTarget, branchPc]
  split
  · split <;> rfl
  · rfl

/-- Wherever a branch with a displacement other than 0 goes, that is past `pc + 1` exactly when it is taken. -/
theorem branchPc_ne_succ_iff {taken : Bool} {pc memSize p : Nat} {y : Int}
    (h : branchPc taken pc memSize y = .ok p) (hy : y ≠ 0) : p ≠ pc + 1 ↔ taken = true := by
  rw [branchPc] at h
  split at h
  case isTrue htaken =>
    split at h
    case isTrue hr =>
      cases h
      have hne : ((pc : Int) + 1 + y).toNat ≠ pc + 1 := by omega
      simp [htaken, hne]
    case isFalse => cases h
  case isFalse htaken =>
    cases h
    simp [htaken]

/-- Only a taken branch faults. -/
theorem taken_of_branchPc_error {taken : Bool} {pc memSize : Nat} {y : Int} {f : Fault}
    (h : branchPc taken pc memSize y = .error f) : taken = true := by
  cases taken with
  | true => rfl
  | false => cases h

/-! ## The meaning of every branch, from its row of the table (44_branch.md R152) -/

section BranchRow
variable {i : Instr} {y : Src2} {c : Bool} {s : State}

/-- An instruction with a row in the table is the branch on that row's condition and displacement: the 15 others
have none, and each branch's meaning is written from its row. -/
theorem exec_eq_branch (hrow : Instr.branchRow? s.flags i = some (y, c)) : exec i s = branch c y s := by
  cases i <;> cases hrow <;> rfl

theorem exec_branch_eq_next (hrow : Instr.branchRow? s.flags i = some (y, c)) {t : State} :
    exec i s = .next t ↔ ∃ p, branchPc c s.pc s.cfg.memSize (s.operandY y) = .ok p ∧ s.setPc p = t := by
  rw [exec_eq_branch hrow, branch_eq_commit_branchPc, commit_eq_next]
  cases branchPc c s.pc s.cfg.memSize (s.operandY y) <;> simp

theorem exec_branch_eq_fault (hrow : Instr.branchRow? s.flags i = some (y, c)) {f : Fault} :
    exec i s = .fault f ↔ branchPc c s.pc s.cfg.memSize (s.operandY y) = .error f := by
  rw [exec_eq_branch hrow, branch_eq_commit_branchPc, commit_eq_fault]
  cases branchPc c s.pc s.cfg.memSize (s.operandY y) <;> simp

end BranchRow

/-- An instruction whose row has the condition `cond` is taken exactly when `cond` holds. -/
theorem takenExactlyWhen_of_branchRow {branchOf : Src2 → Instr} {cond : Flags → Bool}
    (hrow : ∀ f y, Instr.branchRow? f (branchOf y) = some (y, cond f)) : TakenExactlyWhen branchOf cond := by
  constructor
  · intro y s t hy h
    obtain ⟨p, hp, rfl⟩ := (exec_branch_eq_next (hrow s.flags y)).mp h
    exact branchPc_ne_succ_iff hp hy
  · intro y s f h
    exact taken_of_branchPc_error ((exec_branch_eq_fault (hrow s.flags y)).mp h)

/-- Settles O33: each of the 15 conditions is the one in the branch's row. -/
theorem branchesAreTakenExactlyOnTheTablesCondition : Obligations.BranchesAreTakenExactlyOnTheTablesCondition := by
  refine ⟨?_, ?_, ?_, ?_, ?_, ?_, ?_, ?_, ?_, ?_, ?_, ?_, ?_, ?_, ?_⟩ <;>
    exact takenExactlyWhen_of_branchRow fun _ _ => rfl

/-! ## What a branch reads of the state and of its word (44_branch.md R153) -/

/-- An operand reads no register but the one it names. -/
theorem operandY_eq_of_named {s s' : State} {y : Src2} (h : ∀ r, y = .reg r → s'.reg r = s.reg r) :
    s'.operandY y = s.operandY y := by
  cases y with
  | reg r => rw [operandY_reg, operandY_reg, h r rfl]
  | imm k => rfl

/-- A branch has neither `dest` nor `src1` among its operands. -/
theorem withOperands_eq_of_branchRow {m : Mnemonic} {f : Flags} {d a : Reg} {y : Src2} {row : Src2 × Bool}
    (hrow : Instr.branchRow? f (m.withOperands d a y) = some row) (d' a' : Reg) :
    m.withOperands d' a' y = m.withOperands d a y := by
  cases m <;> cases hrow <;> rfl

/-- A word that differs from a branch's in bits 10:5 only decodes to the same branch. -/
theorem decode_branch_of_mask_eq {map : OpcodeMap} {w w' : Word} {i : Instr} {f : Flags} {row : Src2 × Bool}
    (hrow : Instr.branchRow? f i = some row) (hi : decode map w = .ok i)
    (hw : w' &&& 0xF81F = w &&& 0xF81F) : decode map w' = .ok i := by
  have hopcode : opcodeField w' = opcodeField w := by
    rw [← opcodeField_and_0xF81F w', hw, opcodeField_and_0xF81F]
  have hsrc2 : src2Of w' = src2Of w := by
    rw [src2Of_eq, src2Of_eq, ← src2Field_and_0xF81F w', hw, src2Field_and_0xF81F]
  obtain ⟨m, hm, rfl⟩ := decode_eq_ok_iff.mp hi
  refine decode_eq_ok_iff.mpr ⟨m, hopcode.symm ▸ hm, ?_⟩
  rw [hsrc2]
  exact withOperands_eq_of_branchRow hrow _ _

/-- Settles O34: a branch's outcome is `branchPc` of its row's condition, the pc, `MEM_SIZE` and the displacement, on
which the two states agree, and a completed branch only sets the pc to it. -/
theorem branchesReadFlagsAndWriteOnlyThePc : Obligations.BranchesReadFlagsAndWriteOnlyThePc := by
  refine fun i y c s hrow => ⟨fun t h => ?frame, fun s' hflags hpc hmem hreg => ?reads,
    fun map w w' hi hw => decode_branch_of_mask_eq hrow hi hw⟩
  case frame =>
    obtain ⟨p, -, rfl⟩ := (exec_branch_eq_next hrow).mp h
    rfl
  case reads =>
    have hrow' : Instr.branchRow? s'.flags i = some (y, c) := hflags ▸ hrow
    have hsame : branchPc c s'.pc s'.cfg.memSize (s'.operandY y) = branchPc c s.pc s.cfg.memSize (s.operandY y) := by
      rw [hpc, hmem, operandY_eq_of_named hreg]
    constructor
    · intro t h
      obtain ⟨p, hp, rfl⟩ := (exec_branch_eq_next hrow).mp h
      exact (exec_branch_eq_next hrow').mpr ⟨p, hsame.trans hp, rfl⟩
    · intro f h
      exact (exec_branch_eq_fault hrow').mpr (hsame.trans ((exec_branch_eq_fault hrow).mp h))

end Sys2Proof.Machine
end

section
namespace Sys2Proof.Machine

/-! ## What an instruction's fault can be (60_exceptions.md R206, point 3) -/

/-- Only a branch to a target outside memory faults (44_branch.md R151). -/
theorem branch_fault {taken : Bool} {y : Src2} {s : State} {f : Fault} (h : branch taken y s = .fault f) :
    ¬ s.inRange (s.branchTarget y) ∧ f = .addressOutOfRange (s.branchTarget y) := by
  rw [branch_eq] at h
  split at h
  · split at h
    · cases h
    · next hout => cases h; exact ⟨hout, rfl⟩
  · cases h

/-- DIV faults exactly on a zero `Y8`, and then with DivisionByZero (42_arithmetic.md R113). -/
theorem exec_div_eq_fault {d a : Reg} {y : Src2} {s : State} {f : Fault} :
    exec (.div d a y) s = .fault f ↔ s.operandY8 y = 0 ∧ f = .divisionByZero := by
  rw [exec, execDiv]
  split
  · next hzero => simp [hzero, eq_comm]
  · next hne => exact iff_of_false nofun fun ⟨hzero, _⟩ => hne hzero

/-- Everything a faulting instruction can have been: a DIV by a zero `Y8`, or an access or a jump outside memory. -/
theorem exec_fault {i : Instr} {s : State} {f : Fault} (h : exec i s = .fault f) :
    (∃ d a y, i = .div d a y ∧ s.operandY8 y = 0 ∧ f = .divisionByZero) ∨
      ∃ b : Int, ¬ s.inRange b ∧ f = .addressOutOfRange b := by
  cases hrow : Instr.branchRow? s.flags i with
  | some row => exact .inr ⟨_, branch_fault ((exec_eq_branch hrow).symm.trans h)⟩
  | none =>
    cases i with
    | beq | bneq | blt | ble | bgt | bge | b | bcs | bcc | bmi | bpl | bvs | bvc | bhi | bls => cases hrow
    | nop | add | sub | mul | neg | and | or | xor | not | lsl | lsr | asr => cases h
    | div d a y => exact .inl ⟨d, a, y, rfl, exec_div_eq_fault.mp h⟩
    | ldr d y =>
      by_cases hr : s.inRange (s.operandY y)
      · rw [exec, execLdr, loadWord_inRange hr] at h
        cases h
      · rw [exec, execLdr, loadWord_outOfRange hr] at h
        cases h; exact .inr ⟨_, hr, rfl⟩
    | str d a y =>
      by_cases hr : s.inRange (s.operandY y)
      · rw [exec, execStr, storeWord_inRange hr] at h
        cases h
      · rw [exec, execStr, storeWord_outOfRange hr] at h
        cases h; exact .inr ⟨_, hr, rfl⟩

/-! ## DivisionByZero (60_exceptions.md R202) -/

/-- A well-formed operand's `Y8` is 0 only where the operand is: no immediate -16..-1 is 0 modulo 256. -/
theorem operandY8_eq_zero_iff {s : State} {y : Src2} (hy : y.wf = true) : s.operandY8 y = 0 ↔ s.operandY y = 0 := by
  rw [← BitVec.toNat_inj, State.operandY8, toNat_as8, show (0 : Byte).toNat = 0 from rfl]
  cases y with
  | reg r =>
    have hr : (s.reg r).toNat < 2 ^ 8 := (s.reg r).isLt
    rw [operandY_reg]
    omega
  | imm k =>
    simp only [Src2.wf, Bool.and_eq_true, decide_eq_true_eq] at hy
    rw [operandY_imm]
    omega

/-- DIV by an operand that is 0 raises DivisionByZero, whatever the form of the operand. -/
theorem exec_div_of_operandY_eq_zero {s : State} {y : Src2} (d a : Reg) (hy : s.operandY y = 0) :
    exec (.div d a y) s = .fault .divisionByZero :=
  exec_div_eq_fault.mpr ⟨congrArg as8 hy, rfl⟩

/-- Settles O25: among the faults of exec only DIV's is DivisionByZero, and a run whose first cycle faults keeps the
state it started from. -/
theorem divisionByZeroIsRaisedOnlyByDivByZero : Obligations.DivisionByZeroIsRaisedOnlyByDivByZero := by
  refine ⟨fun i s hwf => ⟨fun h => ?onlyDiv, ?raised⟩, fun n s d a y hpc hdecode hy => ?run⟩
  case onlyDiv =>
    obtain ⟨d, a, y, rfl, hy8, -⟩ | ⟨b, -, hb⟩ := exec_fault h
    · exact ⟨d, a, y, rfl, (operandY8_eq_zero_iff hwf).mp hy8⟩
    · cases hb
  case raised =>
    rintro ⟨d, a, y, rfl, hy⟩
    exact exec_div_of_operandY_eq_zero d a hy
  case run =>
    have hcycle : cycle s = .fault .divisionByZero :=
      (cycle_decoded hpc hdecode).trans (exec_div_of_operandY_eq_zero d a hy)
    rw [run, runLoop_fault 0 n hcycle]
    exact ⟨rfl, _, rfl, rfl⟩

end Sys2Proof.Machine
end

section
namespace Sys2Proof

/-! ## Encode and decode are inverse (30_encoding.md sections 1, 2 and 4) -/

/-- An instruction with a second operand is its mnemonic with its operands; the fields the short form leaves out do not
matter. -/
theorem withOperands_operands {i : Instr} {y : Src2} (hy : i.src2? = some y) :
    i.mnemonic.withOperands i.destOperand i.src1Operand y = i := by
  cases i <;> cases hy <;> rfl

/-- NOP is the one instruction without a second operand. -/
theorem eq_nop_of_src2?_eq_none {i : Instr} (h : i.src2? = none) : i = .nop := by
  cases i with
  | nop => rfl
  | _ => cases h

theorem encode_of_src2? (map : OpcodeMap) {i : Instr} {y : Src2} (hy : i.src2? = some y) :
    encode map i = packFields (map.opcodeOf i.mnemonic) i.destOperand i.src1Operand y.field := by
  rw [encode, hy, Option.map_some, Option.getD_some]

theorem wf_of_src2? {i : Instr} {y : Src2} (hy : i.src2? = some y) : i.wf = y.wf := by
  rw [Instr.wf, hy]

/-- The fields of a well-formed instruction's word are its operands, whatever the map. -/
theorem withOperands_encode (map : OpcodeMap) {i : Instr} (hi : i.wf = true) :
    i.mnemonic.withOperands (destField (encode map i)) (src1Field (encode map i)) (src2Of (encode map i)) = i := by
  cases hy : i.src2? with
  | none => rw [eq_nop_of_src2?_eq_none hy]; rfl
  | some y =>
    rw [encode_of_src2? map hy, destField_packFields, src1Field_packFields,
      src2Of_packFields_field _ _ _ ((wf_of_src2? hy).symm.trans hi), withOperands_operands hy]

@[simp] theorem opcodeField_encode (map : OpcodeMap) (i : Instr) :
    opcodeField (encode map i) = map.opcodeOf i.mnemonic :=
  opcodeField_packFields _ _ _ _

/-- Settles O1: a one-to-one map finds the mnemonic of the encoded opcode, and the other fields give the operands. -/
theorem decodeOfEncodeIsTheInstruction : Obligations.DecodeOfEncodeIsTheInstruction := by
  intro map i hmap hi
  rw [Machine.decode_of_opcodeOf hmap (opcodeField_encode map i).symm, withOperands_encode map hi]

/-! ## The bits an instruction uses (30_encoding.md R57, R61, R63) -/

/-- The bits of the src2-field an operand depends on: not bit 3 in the register form (30_encoding.md R57). -/
def Src2.usedFieldBits : Src2 → BitVec 5
  | .reg _ => 0x17
  | .imm _ => 0x1F

/-- Whether a mnemonic's instructions have a `dest` operand (30_encoding.md R61). -/
def Mnemonic.usesDest (m : Mnemonic) : Bool := (m.withOperands 1 0 (.reg 0)).destOperand == 1

/-- Whether a mnemonic's instructions have a `src1` operand (30_encoding.md R61). -/
def Mnemonic.usesSrc1 (m : Mnemonic) : Bool := (m.withOperands 0 1 (.reg 0)).src1Operand == 1

section Operands
variable (m : Mnemonic) (d a : Reg) (y : Src2)

theorem destOperand_withOperands :
    (m.withOperands d a y).destOperand = if m.usesDest then d else 0 := by
  cases m <;> rfl

theorem src1Operand_withOperands :
    (m.withOperands d a y).src1Operand = if m.usesSrc1 then a else 0 := by
  cases m <;> rfl

/-- The bits of an instruction, field by field: the opcode, the registers its mnemonic uses, and its second
operand's. -/
theorem usedBits_withOperands :
    (m.withOperands d a y).usedBits =
      packFields 31 (if m.usesDest then 7 else 0) (if m.usesSrc1 then 7 else 0)
        (if m = .nop then 0 else y.usedFieldBits) := by
  cases y <;> cases m <;> rfl

end Operands

/-- A word is its four fields (30_encoding.md R56). -/
theorem packFields_fields (w : Word) : packFields (opcodeField w) (destField w) (src1Field w) (src2Field w) = w := by
  have hdest : regBits (destField w) = w.extractLsb' 8 3 := rfl
  have hsrc1 : regBits (src1Field w) = w.extractLsb' 5 3 := rfl
  apply BitVec.eq_of_getLsbD_eq
  intro i hi
  rw [getLsbD_packFields _ _ _ _ i hi, hdest, hsrc1, opcodeField, src2Field]
  simp only [BitVec.getLsbD_extractLsb']
  split
  · simp [show i - 11 < 5 by omega, show 11 + (i - 11) = i by omega]
  split
  · simp [show i - 8 < 3 by omega, show 8 + (i - 8) = i by omega]
  split
  · simp [show i - 5 < 3 by omega, show 5 + (i - 5) = i by omega]
  · simp [show i < 5 by omega]

theorem regBits_and (r r' : Reg) : regBits r &&& regBits r' = regBits (r &&& r') := by
  revert r r'
  decide

/-- Words are masked field by field. -/
theorem packFields_and (op op' : Opcode) (d d' a a' : Reg) (y y' : BitVec 5) :
    packFields op d a y &&& packFields op' d' a' y' = packFields (op &&& op') (d &&& d') (a &&& a') (y &&& y') := by
  apply BitVec.eq_of_getLsbD_eq
  intro i hi
  simp only [BitVec.getLsbD_and, getLsbD_packFields _ _ _ _ i hi, ← regBits_and]
  split
  · rfl
  split
  · rfl
  split <;> rfl

theorem reg_and_mask (r : Reg) (p : Bool) : r &&& (if p then 7 else 0) = if p then r else 0 := by
  revert r p
  decide

/-- The used bits of a decoded word, field by field. -/
theorem and_usedBits_withOperands (w : Word) (m : Mnemonic) (d a : Reg) (y : Src2) :
    w &&& (m.withOperands d a y).usedBits =
      packFields (opcodeField w) (if m.usesDest then destField w else 0) (if m.usesSrc1 then src1Field w else 0)
        (if m = .nop then 0 else src2Field w &&& y.usedFieldBits) := by
  have hopcode : opcodeField w &&& 31 = opcodeField w := BitVec.and_allOnes
  conv_lhs => rw [← packFields_fields w]
  rw [usedBits_withOperands, packFields_and, hopcode, reg_and_mask, reg_and_mask]
  by_cases hnop : m = .nop <;> simp [hnop]

/-- The operand a word names has the word's src2-field but for the bits it does not use. -/
theorem field_src2Of (w : Word) : (src2Of w).field = src2Field w &&& (src2Of w).usedFieldBits := by
  rw [src2Of_eq]
  generalize src2Field w = v
  revert v
  decide

theorem encode_withOperands (map : OpcodeMap) (m : Mnemonic) (d a : Reg) (y : Src2) :
    encode map (m.withOperands d a y) =
      packFields (map.opcodeOf m) (if m.usesDest then d else 0) (if m.usesSrc1 then a else 0)
        (if m = .nop then 0 else y.field) := by
  rw [encode, mnemonic_withOperands, destOperand_withOperands, src1Operand_withOperands, src2?_withOperands]
  by_cases hnop : m = .nop <;> simp [hnop]

/-- A decoded instruction can be encoded. -/
theorem wf_withOperands (m : Mnemonic) (d a : Reg) {y : Src2} (hy : y.wf = true) :
    (m.withOperands d a y).wf = true := by
  rw [Instr.wf, src2?_withOperands]
  split
  · rfl
  · next h =>
    split at h
    · cases h
    · cases h; exact hy

/-- Settles O2: both words are packed from the same fields, those the instruction does not use being 0. -/
theorem encodeOfDecodeKeepsTheUsedBits : Obligations.EncodeOfDecodeKeepsTheUsedBits := by
  intro map w i h
  obtain ⟨m, hm, rfl⟩ := decode_eq_ok_iff.mp h
  refine ⟨wf_withOperands m _ _ (src2Of_wf w), ?_⟩
  rw [encode_withOperands, and_usedBits_withOperands, OpcodeMap.opcodeOf_of_mnemonicOf? hm, field_src2Of]

/-- Words that agree on the bits an operand uses name the same operand: bit 4, which says its form, is one of them. -/
theorem src2Of_eq_of_usedFieldBits {w w' : Word}
    (h : src2Field w' &&& (src2Of w).usedFieldBits = src2Field w &&& (src2Of w).usedFieldBits) :
    src2Of w' = src2Of w := by
  have hbit4 : (src2Of w).usedFieldBits.getLsbD 4 = true := by
    cases src2Of w <;> simp [Src2.usedFieldBits]
  have hflag : immFlag w' = immFlag w := by
    have hbit := congrArg (fun v : BitVec 5 => v.getLsbD 4) h
    simp only [BitVec.getLsbD_and, hbit4, Bool.and_true] at hbit
    rw [immFlag_eq, immFlag_eq, hbit]
  have hform : (src2Of w').usedFieldBits = (src2Of w).usedFieldBits := by
    rw [src2Of, src2Of, hflag]
    split <;> rfl
  rw [← src2Of_packFields_field 0 0 0 (src2Of_wf w'), field_src2Of w', hform, h, ← field_src2Of w,
    src2Of_packFields_field 0 0 0 (src2Of_wf w)]

/-- A mnemonic's instruction depends only on the operands it uses. -/
theorem withOperands_eq_of_used {m : Mnemonic} {d d' a a' : Reg} {y y' : Src2}
    (hd : (if m.usesDest then d' else 0) = if m.usesDest then d else 0)
    (ha : (if m.usesSrc1 then a' else 0) = if m.usesSrc1 then a else 0) (hy : m ≠ .nop → y' = y) :
    m.withOperands d' a' y' = m.withOperands d a y := by
  have hused (d a : Reg) (y : Src2) :
      m.withOperands (if m.usesDest then d else 0) (if m.usesSrc1 then a else 0) y = m.withOperands d a y := by
    cases m <;> rfl
  by_cases hnop : m = .nop
  · subst hnop; rfl
  · rw [← hused d' a' y', hd, ha, hy hnop, hused]

/-- Settles O3: the used bits hold the opcode, the register operands and the second operand, each in its own field. -/
theorem unusedBitsDoNotMatter : Obligations.UnusedBitsDoNotMatter := by
  intro map w w' i h hbits
  obtain ⟨m, hm, rfl⟩ := decode_eq_ok_iff.mp h
  rw [and_usedBits_withOperands, and_usedBits_withOperands] at hbits
  have hopcode : opcodeField w' = opcodeField w := by simpa using congrArg opcodeField hbits
  have hdest := congrArg destField hbits
  have hsrc1 := congrArg src1Field hbits
  have hsrc2 := congrArg src2Field hbits
  rw [destField_packFields, destField_packFields] at hdest
  rw [src1Field_packFields, src1Field_packFields] at hsrc1
  rw [src2Field_packFields, src2Field_packFields] at hsrc2
  refine decode_eq_ok_iff.mpr ⟨m, hopcode.symm ▸ hm, withOperands_eq_of_used hdest hsrc1 fun hnop => ?_⟩
  rw [if_neg hnop, if_neg hnop] at hsrc2
  exact src2Of_eq_of_usedFieldBits hsrc2

/-- Settles O4: a one-to-one map is inverted by its lookup, and an opcode without a mnemonic is not found. -/
theorem opcodeFieldAloneSelectsTheInstruction : Obligations.OpcodeFieldAloneSelectsTheInstruction := by
  refine fun map w hmap => ⟨fun m => ⟨?accepted, fun h => ?selected⟩, ?rejected⟩
  case accepted =>
    rintro ⟨i, hi, rfl⟩
    obtain ⟨hopcode, -⟩ := decode_ok hi
    exact hopcode
  case selected => exact ⟨_, Machine.decode_of_opcodeOf hmap h, mnemonic_withOperands _ _ _ m⟩
  case rejected => exact ⟨fun h => decode_error.mpr ⟨rfl, h⟩, fun h => (decode_error.mp h).2⟩

/-! ## The opcodes a map leaves unmapped (30_encoding.md R60) -/

theorem OpcodeMap.isSome_mnemonicOf? {map : OpcodeMap} {op : Opcode} :
    (map.mnemonicOf? op).isSome = true ↔ ∃ m, map.opcodeOf m = op := by
  rw [← Option.ne_none_iff_isSome, Ne, OpcodeMap.mnemonicOf?_eq_none]
  push Not
  rfl

/-- The opcode values a map gives, in the order of the mnemonics. -/
def OpcodeMap.mappedValues (map : OpcodeMap) : List Nat := Mnemonic.all.map fun m => (map.opcodeOf m).toNat

theorem OpcodeMap.nodup_mappedValues {map : OpcodeMap} (hmap : map.wf = true) : map.mappedValues.Nodup :=
  List.Nodup.map (fun _ _ h => OpcodeMap.opcodeOf_injective hmap (BitVec.eq_of_toNat_eq h)) (by decide)

theorem OpcodeMap.mem_mappedValues {map : OpcodeMap} {k : Nat} :
    k ∈ map.mappedValues ↔ k < 32 ∧ (map.mnemonicOf? (BitVec.ofNat 5 k)).isSome = true := by
  rw [OpcodeMap.isSome_mnemonicOf?, OpcodeMap.mappedValues, List.mem_map]
  constructor
  · rintro ⟨m, -, rfl⟩
    exact ⟨BitVec.isLt _, m, by simp⟩
  · rintro ⟨hk, m, hm⟩
    exact ⟨m, m.mem_all, by rw [hm, BitVec.toNat_ofNat, Nat.mod_eq_of_lt hk]⟩

/-- A one-to-one map gives a mnemonic to 30 of the 32 opcode values. -/
theorem OpcodeMap.length_mapped {map : OpcodeMap} (hmap : map.wf = true) :
    ((List.range 32).filter fun k => (map.mnemonicOf? (BitVec.ofNat 5 k)).isSome).length = 30 := by
  have hperm : ((List.range 32).filter fun k => (map.mnemonicOf? (BitVec.ofNat 5 k)).isSome).Perm map.mappedValues :=
    (List.perm_ext_iff_of_nodup (List.nodup_range.filter _) (OpcodeMap.nodup_mappedValues hmap)).mpr fun k => by
      rw [List.mem_filter, List.mem_range, OpcodeMap.mem_mappedValues]
  rw [hperm.length_eq, OpcodeMap.mappedValues, List.length_map]
  rfl

/-- Settles O5: the unmapped values are what the 30 mapped ones leave of the 32. -/
theorem exactlyTwoOpcodesAreUnmapped : Obligations.ExactlyTwoOpcodesAreUnmapped := by
  intro map hmap
  have hsplit := List.length_eq_length_filter_add (l := List.range 32)
    fun k => (map.mnemonicOf? (BitVec.ofNat 5 k)).isSome
  simp only [OpcodeMap.length_mapped hmap, List.length_range, Option.not_isSome] at hsplit
  omega

/-- Settles O8: decoding computes, each word by its own run of the decoder. -/
theorem specWordsDecodeToTheirInstructions : Obligations.SpecWordsDecodeToTheirInstructions :=
  ⟨rfl, rfl, rfl, rfl, rfl, rfl, rfl, rfl, rfl, rfl, rfl, rfl⟩

end Sys2Proof
end

section
namespace Sys2Proof.Machine

/-! ## The memory instructions, whole (45_memory.md R180 to R183) -/

/-- What LDR does, whole (45_memory.md R181). -/
theorem exec_ldr (d : Reg) (y : Src2) (s : State) :
    exec (.ldr d y) s =
      if s.inRange (s.operandY y) then .next (s.logical d (lowByte (s.word (s.operandY y).toNat)))
      else .fault (.addressOutOfRange (s.operandY y)) := by
  rw [exec, execLdr, State.loadWord]
  split <;> rfl

/-- The state after a store: one word replaced and the pc advanced (45_memory.md R182). -/
def State.stored (s : State) (a : Int) (v : Byte) : State :=
  State.advance { s with mem := s.mem.write a.toNat (zext16 v) }

/-- What STR does, whole (45_memory.md R182, R183). -/
theorem exec_str (d a : Reg) (y : Src2) (s : State) :
    exec (.str d a y) s =
      if s.inRange (s.operandY y) then .next (s.stored (s.operandY y) (s.reg (strDataReg s.cfg.strDataField d a y)))
      else .fault (.addressOutOfRange (s.operandY y)) := by
  rw [exec, execStr, State.storeWord]
  split <;> rfl

theorem exec_str_eq_next {d a : Reg} {y : Src2} {s t : State} :
    exec (.str d a y) s = .next t ↔
      s.inRange (s.operandY y) ∧ s.stored (s.operandY y) (s.reg (strDataReg s.cfg.strDataField d a y)) = t := by
  rw [exec_str]
  split
  · next hr => exact ⟨fun h => ⟨hr, Host.Outcome.next.inj h⟩, fun ⟨_, h⟩ => congrArg _ h⟩
  · next hr => exact iff_of_false nofun fun ⟨h, _⟩ => hr h

section Stored
variable (s : State) (a : Int) (v : Byte)
@[simp] theorem stored_cfg : (s.stored a v).cfg = s.cfg := rfl
@[simp] theorem stored_pc : (s.stored a v).pc = s.pc + 1 := rfl
@[simp] theorem stored_flags : (s.stored a v).flags = s.flags := rfl
@[simp] theorem stored_budget : (s.stored a v).budget = s.budget := rfl
@[simp] theorem stored_reg (r : Reg) : (s.stored a v).reg r = s.reg r := rfl

theorem stored_word_self (h : s.mem.wf) : (s.stored a v).word a.toNat = zext16 v :=
  Memory.read_write_self h _ _

theorem stored_word_other {b : Nat} (h : b ≠ a.toNat) : (s.stored a v).word b = s.word b :=
  Memory.read_write_other s.mem _ h
end Stored

/-! ## An instruction completes, or faults with its own check (60_exceptions.md R206, point 3) -/

theorem rangeCheck_eq_none {s : State} {a : Int} (h : s.inRange a) : s.rangeCheck a = none := if_pos h

theorem rangeCheck_eq_some {s : State} {a : Int} (h : ¬ s.inRange a) :
    s.rangeCheck a = some (.addressOutOfRange a) := if_neg h

/-- A branch's own check is that of its target, when it is taken. -/
theorem ownFault?_of_branchRow {i : Instr} {s : State} {y : Src2} {c : Bool}
    (hrow : Instr.branchRow? s.flags i = some (y, c)) :
    Instr.ownFault? i s = if c then s.rangeCheck (s.branchTarget y) else none := by
  cases i <;> cases hrow <;> rfl

/-- A branch from every state faults with the check of its target, when taken, or completes. -/
theorem branch_eq_elim (c : Bool) (y : Src2) (s : State) :
    ∃ t, branch c y s = (if c then s.rangeCheck (s.branchTarget y) else none).elim (.next t) .fault := by
  rw [branch_eq]
  split
  · by_cases hr : s.inRange (s.branchTarget y)
    · exact ⟨_, by rw [if_pos hr, rangeCheck_eq_none hr, Option.elim_none]⟩
    · exact ⟨s, by rw [if_neg hr, rangeCheck_eq_some hr, Option.elim_some]⟩
  · exact ⟨_, rfl⟩

/-- Every instruction from every state faults with its own check or completes. -/
theorem exec_eq_elim (i : Instr) (s : State) : ∃ t, exec i s = (Instr.ownFault? i s).elim (.next t) .fault := by
  cases hrow : Instr.branchRow? s.flags i with
  | some row =>
    rw [exec_eq_branch hrow, ownFault?_of_branchRow hrow]
    exact branch_eq_elim _ _ _
  | none =>
    cases i with
    | beq | bneq | blt | ble | bgt | bge | b | bcs | bcc | bmi | bpl | bvs | bvc | bhi | bls => cases hrow
    | nop | add | sub | mul | neg | and | or | xor | not | lsl | lsr | asr => exact ⟨_, rfl⟩
    | div d a y =>
      rw [Instr.ownFault?]
      by_cases hzero : s.operandY8 y = 0
      · have hzero' : (s.operandY8 y).toNat = 0 := congrArg BitVec.toNat hzero
        exact ⟨s, by rw [if_pos hzero', exec_div_eq_fault.mpr ⟨hzero, rfl⟩, Option.elim_some]⟩
      · have hne : (s.operandY8 y).toNat ≠ 0 := fun h => hzero (BitVec.eq_of_toNat_eq h)
        exact ⟨_, by rw [if_neg hne, exec, execDiv, if_neg hzero, Option.elim_none]⟩
    | ldr d y =>
      rw [exec_ldr, Instr.ownFault?, State.rangeCheck]
      split <;> [exact ⟨_, rfl⟩; exact ⟨s, rfl⟩]
    | str d a y =>
      rw [exec_str, Instr.ownFault?, State.rangeCheck]
      split <;> [exact ⟨_, rfl⟩; exact ⟨s, rfl⟩]

theorem exec_eq_fault {i : Instr} {s : State} {f : Fault} :
    exec i s = .fault f ↔ Instr.ownFault? i s = some f := by
  obtain ⟨t, ht⟩ := exec_eq_elim i s
  rw [ht]
  cases Instr.ownFault? i s <;> simp

/-- No instruction is without its meaning (30_encoding.md section 2). -/
theorem exec_ne_refused (i : Instr) (s : State) (r : Refusal) : exec i s ≠ .refused r := by
  obtain ⟨t, ht⟩ := exec_eq_elim i s
  rw [ht]
  cases Instr.ownFault? i s <;> simp

/-! ## The ordered checks of the cycle and of the step (60_exceptions.md R206) -/

theorem cycle_eq_fault {s : State} {f : Fault} :
    cycle s = .fault f ↔
      (s.cfg.memSize ≤ s.pc ∧ f = .addressOutOfRange (s.pc : Int)) ∨
      (s.pc < s.cfg.memSize ∧
        ((∃ op, decode s.cfg.opcodeMap (s.word s.pc) = .error (.unknownOpcode op) ∧ f = .unknownOpcode op) ∨
         (∃ i, decode s.cfg.opcodeMap (s.word s.pc) = .ok i ∧ Instr.ownFault? i s = some f))) := by
  by_cases hpc : s.pc < s.cfg.memSize
  · cases hd : decode s.cfg.opcodeMap (s.word s.pc) with
    | error e =>
      obtain ⟨op⟩ := e
      simp [cycle_undecoded hpc hd, decodeFault, hpc, eq_comm]
    | ok i => simp [cycle_decoded hpc hd, exec_eq_fault, hpc]
  · simp [cycle_outside (Nat.le_of_not_lt hpc), hpc, Nat.le_of_not_lt hpc, eq_comm]

theorem cycle_ne_refused (s : State) (r : Refusal) : cycle s ≠ .refused r := by
  by_cases hpc : s.pc < s.cfg.memSize
  · cases hd : decode s.cfg.opcodeMap (s.word s.pc) with
    | error e => simp [cycle_undecoded hpc hd]
    | ok i => rw [cycle_decoded hpc hd]; exact exec_ne_refused i s r
  · simp [cycle_outside (Nat.le_of_not_lt hpc)]

/-- Unless the run is at its end, a step's fatal error is its cycle's. -/
theorem step_eq_fault {s : State} (hbudget : s.budget ≠ some 0) {f : Fault} :
    step s = .fault f ↔ cycle s = .fault f := by
  refine ⟨fun h => ?_, step_of_cycle_fault hbudget⟩
  cases hc : cycle s with
  | fault g => rw [← h, step_of_cycle_fault hbudget hc]
  | refused r => exact absurd hc (cycle_ne_refused s r)
  | next t =>
    cases hb : s.budget with
    | none => rw [step_idle hb, hc] at h; exact h
    | some k =>
      cases k with
      | zero => exact absurd hb hbudget
      | succ k => rw [step_running hb, hc, spend_next] at h; cases h

/-- Settles O13: a step's fault is its cycle's, which is that of the first check that fails. -/
theorem stepFaultsExactlyAtTheOrderedChecks : Obligations.StepFaultsExactlyAtTheOrderedChecks := fun _ _ hbudget =>
  (step_eq_fault hbudget).trans cycle_eq_fault

/-- Settles O14: neither the return of a run nor a cycle is refused. -/
theorem stepNeverRefuses : Obligations.StepNeverRefuses := by
  intro s r h
  cases hb : s.budget with
  | none => exact cycle_ne_refused s r ((step_idle hb).symm.trans h)
  | some k =>
    cases k with
    | zero => rw [step_exhausted hb] at h; cases h
    | succ k =>
      rw [step_running hb] at h
      cases hc : cycle s with
      | refused r' => exact cycle_ne_refused s r' hc
      | next t => rw [hc] at h; cases h
      | fault f => rw [hc] at h; cases h

/-- Settles O9: by the equation of the step in each case of the budget. -/
theorem stepRunsTheDecodedInstruction : Obligations.StepRunsTheDecodedInstruction := by
  intro s i hpc hi
  have hcycle : cycle s = exec i s := cycle_decoded hpc hi
  refine ⟨fun hb => (step_idle hb).trans hcycle, fun k t hb ht => ?_, fun k f hb hf => ?_⟩
  · rw [step_running hb, hcycle, ht, spend_next, State.setBudget]
  · rw [step_running hb, hcycle, hf, spend_fault]

/-- Settles O18: the meaning of NOP is the incrementer alone. -/
theorem nopOnlyAdvancesThePc : Obligations.NopOnlyAdvancesThePc := fun _ => rfl

/-! ## LDR and STR (45_memory.md sections 1 and 2) -/

/-- The logical result shape with the value `v` is a completion with the number `v` (43_logical_shift.md R130). -/
theorem logicalCompletes_of_exec {i : Instr} {s : State} {d : Reg} {v : Byte} (h : exec i s = .next (s.logical d v)) :
    LogicalCompletes i s d v.toNat :=
  ⟨s.logical d v, h, by rw [logical_reg_self], by rw [logical_z, zeroFlag_eq], logical_c s d v, logical_n s d v,
    logical_v s d v, onlyRegAndFlags_logical d s v⟩

theorem toNat_lowByte (w : Word) : (lowByte w).toNat = w.toNat % 256 := BitVec.toNat_setWidth ..

theorem toNat_zext16 (v : Byte) : (zext16 v).toNat = v.toNat := by
  rw [zext16, BitVec.toNat_setWidth, Nat.mod_eq_of_lt (by omega)]

/-- A byte stored and loaded is the byte (45_memory.md R184). -/
@[simp] theorem lowByte_zext16 (v : Byte) : lowByte (zext16 v) = v := by
  apply BitVec.eq_of_toNat_eq
  rw [toNat_lowByte, toNat_zext16, Nat.mod_eq_of_lt v.isLt]

/-- Settles O36: LDR has the logical result shape where its address is in range. -/
theorem ldrLoadsTheLowByte : Obligations.LdrLoadsTheLowByte := by
  refine fun d y s => ⟨fun hr => ?_, fun hr => by rw [exec_ldr, if_neg hr]⟩
  rw [← toNat_lowByte]
  exact logicalCompletes_of_exec (by rw [exec_ldr, if_pos hr])

/-- Settles O37: the stored state has the one word replaced, by the register that each value of `STR_DATA_FIELD`
names. -/
theorem strStoresTheDataRegister : Obligations.StrStoresTheDataRegister := by
  refine fun d a y s hwf => ⟨fun hr => ?_, fun hr => by rw [exec_str, if_neg hr]⟩
  have hword (v : Byte) : ((s.stored (s.operandY y) v).word (s.operandY y).toNat).toNat = v.toNat := by
    rw [stored_word_self s _ v hwf, toNat_zext16]
  refine ⟨_, exec_str_eq_next.mpr ⟨hr, rfl⟩, ?src1, ?dest, ?src2, fun b hb => stored_word_other s _ _ hb,
    fun _ => rfl, rfl, rfl, rfl, rfl⟩
  case src1 => intro hfield; rw [hword, hfield, strDataReg]
  case dest => intro hfield; rw [hword, hfield, strDataReg]
  case src2 => rintro hfield r rfl; rw [hword, hfield, strDataReg, Src2.lowIndex]

/-- No immediate is a word address (20_memory.md section 2). -/
theorem not_inRange_imm {k : Int} (hk : (Src2.imm k).wf = true) (s : State) : ¬ s.inRange (s.operandY (.imm k)) := by
  simp only [Src2.wf, Bool.and_eq_true, decide_eq_true_eq] at hk
  rintro ⟨hnonneg, -⟩
  rw [operandY_imm] at hnonneg
  omega

/-- Settles O38: a well-formed immediate is negative. -/
theorem immediateAddressAlwaysFaults : Obligations.ImmediateAddressAlwaysFaults := fun d a k s hk =>
  ⟨by rw [exec_ldr, if_neg (not_inRange_imm hk s), operandY_imm],
    by rw [exec_str, if_neg (not_inRange_imm hk s), operandY_imm]⟩

/-- Settles O39: the load is in range because the store was, and the low byte of the stored word is the register. -/
theorem storeThenLoadReturnsTheRegister : Obligations.StoreThenLoadReturnsTheRegister := by
  intro d a r ya yb s t v hwf hstore hword hcfg hy
  obtain ⟨hr, rfl⟩ := exec_str_eq_next.mp hstore
  have hload : v.inRange (v.operandY yb) := by
    rw [hy, State.inRange, hcfg, stored_cfg]
    exact hr
  refine ⟨_, by rw [exec_ldr, if_pos hload], ?_⟩
  rw [logical_reg_self, hy, hword, stored_word_self s _ _ hwf, lowByte_zext16]

/-- Settles O40: the step's cycle is the store, whose address is the next pc. -/
theorem storedWordIsTheNextOneFetched : Obligations.StoredWordIsTheNextOneFetched := by
  intro s t d a y hwf hbudget hpc hdecode hy hstep
  obtain ⟨u, hcycle, ht⟩ | ⟨hzero, -⟩ := step_next hstep
  case inr => exact absurd hzero hbudget
  rw [cycle_decoded hpc hdecode] at hcycle
  obtain ⟨⟨-, hr⟩, rfl⟩ := exec_str_eq_next.mp hcycle
  have hnext : s.operandY y = ((s.pc + 1 : Nat) : Int) := hy
  rw [hnext] at ht hr
  have hword := stored_word_self s ((s.pc + 1 : Nat) : Int) (s.reg (strDataReg s.cfg.strDataField d a y)) hwf
  rw [ht]
  refine ⟨rfl, (fetch_inside (Int.ofNat_lt.mp hr)).trans (congrArg Except.ok hword)⟩

/-! ## What a word holds (20_memory.md section 3) -/

/-- A cycle that does not store to a word keeps it. -/
theorem cycle_keeps_word {s t : State} {a : Nat} (hcycle : cycle s = .next t) (hstore : ¬ StoresTo s a) :
    t.word a = s.word a := by
  obtain ⟨-, i, hdecode, hexec⟩ := cycle_next hcycle
  obtain ⟨-, -, -, hword, -⟩ := unnamedStateKeepsItsValue i s t hexec
  refine hword a fun haddr => ?_
  cases i with
  | str d r y => exact hstore ⟨d, r, y, hdecode, Option.some.inj haddr⟩
  | _ => cases haddr

theorem cycle_cfg {s t : State} (h : cycle s = .next t) : t.cfg = s.cfg := by
  obtain ⟨-, i, -, hexec⟩ := cycle_next h
  obtain ⟨-, -, -, -, hcfg, -⟩ := unnamedStateKeepsItsValue i s t hexec
  exact hcfg

theorem cycle_budget {s t : State} (h : cycle s = .next t) : t.budget = s.budget := by
  obtain ⟨-, i, -, hexec⟩ := cycle_next h
  obtain ⟨-, -, -, -, -, hbudget⟩ := unnamedStateKeepsItsValue i s t hexec
  exact hbudget

theorem loadWord_natCast (s : State) (a : Nat) :
    s.loadWord (a : Int) = if a < s.cfg.memSize then .ok (s.word a) else .error (.addressOutOfRange a) := by
  simp only [State.loadWord, inRange_natCast, Int.toNat_natCast]

/-- What loading a word gives is not changed by cycles that do not store to it. -/
theorem completesNotStoring_loadWord {a n : Nat} {s t : State} (h : CompletesNotStoring a n s t) :
    t.loadWord (a : Int) = s.loadWord (a : Int) := by
  induction h with
  | none s => rfl
  | more n s t u hstore hcycle _ ih =>
    rw [ih, loadWord_natCast, loadWord_natCast, cycle_cfg hcycle, cycle_keeps_word hcycle hstore]

/-- The memory of an image reads as the image, and as 0 past it (70_reset_and_hazards.md R221). -/
theorem read_ofWordsAt_zero (image : List Word) (a : Nat) : (Memory.ofWordsAt 0 image).read a = image.getD a 0 := by
  have hread := Memory.read_ofWordsAt 0 a image
  rwa [Nat.zero_add] at hread

/-- Settles O41: the load gives the word as it was left by the store, or by construction. -/
theorem aWordHoldsTheLastStoreOrItsCreationValue : Obligations.AWordHoldsTheLastStoreOrItsCreationValue := by
  refine fun a n u => ⟨fun s t d r y hwf hdecode hy hcycle hrest => ?stored,
    fun cfg image s hs ha hrest => ?created⟩
  case stored =>
    rw [cycle_decoded (cycle_next hcycle).1 hdecode] at hcycle
    obtain ⟨hr, rfl⟩ := exec_str_eq_next.mp hcycle
    rw [hy] at hr hrest
    rw [completesNotStoring_loadWord hrest, loadWord_inRange (s := s.stored a _) hr, stored_word_self s _ _ hwf, zext16]
  case created =>
    obtain ⟨-, rfl⟩ := construct_eq_some.mp hs
    rw [completesNotStoring_loadWord hrest, loadWord_natCast, if_pos ha, State.word, read_ofWordsAt_zero]

/-- Settles O15: the image's memory reads as the image and as zeros past it. -/
theorem constructionGivesTheCreationState : Obligations.ConstructionGivesTheCreationState := by
  refine fun cfg image => ⟨fun hfits => ?_, fun hlong => if_neg (Nat.not_le.mpr hlong)⟩
  have hs : construct cfg image = some { State.reset with cfg := cfg, mem := Memory.ofWordsAt 0 image } :=
    construct_eq_some.mpr ⟨hfits, rfl⟩
  exact ⟨_, hs, rfl, rfl, fun r => (reg_of_construct hs r).trans (reset_reg r), rfl, rfl, read_ofWordsAt_zero image⟩

end Sys2Proof.Machine
end

section
namespace Sys2Proof.Machine

/-! ## What every step keeps -/

/-- A property that does not speak of the budget and that every completed cycle keeps is kept by every step: a step is a
cycle or the return of a run, up to the budget. -/
theorem step_keeps {P : State → Prop} (hbudget : ∀ s b, P s → P (s.setBudget b))
    (hcycle : ∀ s t, P s → cycle s = .next t → P t) {s t : State} (hs : P s) (h : step s = .next t) : P t := by
  obtain ⟨u, hu, ht⟩ | ⟨-, ht⟩ := step_next h
  · exact ht ▸ hbudget u t.budget (hcycle s u hs hu)
  · exact ht ▸ hbudget s none hs

/-- A property every completed cycle keeps holds after a run, however it ends. -/
theorem runLoop_keeps {P : State → Prop} (hcycle : ∀ s t, P s → cycle s = .next t → P t) (k n : Nat) {s : State}
    (hs : P s) : P (runLoop k n s).1 := by
  induction n generalizing k s with
  | zero => exact hs
  | succ n ih =>
    cases hc : cycle s with
    | next t => rw [runLoop_next k n hc]; exact ih (k + 1) (hcycle s t hs hc)
    | fault f => rw [runLoop_fault k n hc]; exact hs
    | refused r => rw [runLoop_refused k n hc]; exact hs

/-- A write inside memory keeps the memory canonical and inside it. -/
theorem memoryOk_stored {s : State} {a : Int} (ha : s.inRange a) (v : Byte) (hs : s.MemoryOk) :
    (s.stored a v).MemoryOk := by
  obtain ⟨hwf, hinside⟩ := hs
  obtain ⟨hnonneg, hlt⟩ := ha
  refine ⟨Memory.write_wf hwf _ _, fun p hp => ?_⟩
  obtain rfl | hp := Memory.mem_write hp
  · show a.toNat < s.cfg.memSize
    omega
  · exact hinside p hp

/-- Of the shapes of a completed instruction only the store touches memory. -/
theorem cycle_keeps_memoryOk {s t : State} (hs : s.MemoryOk) (h : cycle s = .next t) : t.MemoryOk := by
  obtain ⟨-, i, -, hexec⟩ := cycle_next h
  cases exec_next hexec with
  | arithmetic | logical | jump => exact hs
  | store d a y _ hr => exact memoryOk_stored hr _ hs

/-- Settles O44: a step is a cycle up to the budget, and a cycle's store is range-checked. -/
theorem stepKeepsMemoryCanonicalAndInside : Obligations.StepKeepsMemoryCanonicalAndInside := fun _ _ hs h =>
  step_keeps (fun _ _ hs => hs) (fun _ _ => cycle_keeps_memoryOk) hs h

/-- A completed cycle fetched from inside memory, so the incremented pc is at most `MEM_SIZE`; a jump is
range-checked. -/
theorem cycle_pcOk {s t : State} (h : cycle s = .next t) : t.PcOk := by
  obtain ⟨hpc, i, -, hexec⟩ := cycle_next h
  cases exec_next hexec with
  | arithmetic | logical | store => exact hpc
  | jump p _ _ _ hp =>
    show p ≤ s.cfg.memSize
    omega

/-- Settles O45: a step is a cycle, which ends inside memory or just past it, or the return of a run. -/
theorem stepKeepsThePcInsideMemory : Obligations.StepKeepsThePcInsideMemory := fun _ _ hs h =>
  step_keeps (fun _ _ hs => hs) (fun _ _ _ => cycle_pcOk) hs h

/-! ## The flags of an arithmetic result (42_arithmetic.md R107, R109) -/

/-- No 8-bit value is both zero and negative. -/
theorem zeroFlag_eq_false_of_negativeFlag {r : Byte} (h : negativeFlag r = true) : zeroFlag r = false := by
  rw [negativeFlag_eq, decide_eq_true_eq] at h
  rw [zeroFlag_eq, decide_eq_false_iff_not]
  omega

/-- Overflow, `N != Z`, is `N` or `Z`, since not both hold (42_arithmetic.md R109). -/
theorem overflowFlag_eq_or (r : Byte) :
    overflowFlag (negativeFlag r) (zeroFlag r) = (negativeFlag r || zeroFlag r) := by
  cases hn : negativeFlag r with
  | true => rw [zeroFlag_eq_false_of_negativeFlag hn]; rfl
  | false => exact Bool.false_bne _

theorem flagsOk_arithmetic (s : State) (d : Reg) (u : Int) (c : Int → Bool) : (s.arithmetic d u c).FlagsOk := by
  intro hn
  have hn' : negativeFlag (as8 u) = true := hn
  rw [arithmetic_flags, arithFlags, overflowFlag_eq_or, hn', Bool.true_or]

/-- The shapes of a completed instruction write `N` and `V` together, or neither. -/
theorem cycle_keeps_flagsOk {s t : State} (hs : s.FlagsOk) (h : cycle s = .next t) : t.FlagsOk := by
  obtain ⟨-, i, -, hexec⟩ := cycle_next h
  cases exec_next hexec with
  | arithmetic d u c => exact flagsOk_arithmetic s d u c
  | logical | jump | store => exact hs

/-- Settles O46: a step is a cycle up to the budget, and an arithmetic result that is negative is not zero. -/
theorem stepKeepsNegativeImpliesOverflow : Obligations.StepKeepsNegativeImpliesOverflow := fun _ _ hs h =>
  step_keeps (fun _ _ hs => hs) (fun _ _ => cycle_keeps_flagsOk) hs h

/-- Settles O47: no shape of a completed instruction writes the parameters. -/
theorem stepKeepsTheParameters : Obligations.StepKeepsTheParameters := fun s _ h =>
  step_keeps (P := fun t => t.cfg = s.cfg) (fun _ _ ht => ht) (fun _ _ ht hc => (cycle_cfg hc).trans ht) rfl h

/-! ## The invariants of every engine -/

theorem cycle_keeps_inv {s t : State} (hs : s.Inv) (h : cycle s = .next t) : t.Inv := by
  obtain ⟨hcfg, hmem, -, hflags⟩ := hs
  exact ⟨(cycle_cfg h).symm ▸ hcfg, cycle_keeps_memoryOk hmem h, cycle_pcOk h, cycle_keeps_flagsOk hflags h⟩

/-- A constructed engine meets the invariants (70_reset_and_hazards.md R220, R221). -/
theorem inv_of_construct {cfg : Config} {image : List Word} {s : State} (hcfg : cfg.wf = true)
    (h : construct cfg image = some s) : s.Inv := by
  obtain ⟨hfits, rfl⟩ := construct_eq_some.mp h
  refine ⟨hcfg, ⟨Memory.ofWordsAt_wf 0 image, fun p hp => ?inside⟩, Nat.zero_le _, nofun⟩
  obtain ⟨-, hlt⟩ := Memory.mem_ofWordsAt hp
  show p.1 < cfg.memSize
  omega

/-- Settles O48: the reset state is a constructed engine. -/
theorem resetMeetsTheInvariants : Obligations.ResetMeetsTheInvariants :=
  inv_of_construct (by decide) construct_reference_nil

/-- Settles O49: construction gives the invariants and the cycles of a run keep them. -/
theorem everyReachableStateMeetsTheInvariants : Obligations.EveryReachableStateMeetsTheInvariants :=
  fun _ _ _ n hcfg hs => runLoop_keeps (fun _ _ => cycle_keeps_inv) 0 n (inv_of_construct hcfg hs)

/-! ## Runs compose (40_cycle.md R93, R94) -/

/-- The result of a run with its error's cycle counted from `a` cycles before (40_cycle.md R91). -/
def RunResult.addCycles (a : Nat) : RunResult → RunResult
  | .ok => .ok
  | .err e => .err { e with cycle := a + e.cycle }
  | .refused r => .refused r

/-- The cycles completed before the loop are only counted. -/
theorem runLoop_add (a k n : Nat) (s : State) :
    runLoop (a + k) n s = ((runLoop k n s).1, (runLoop k n s).2.addCycles a) := by
  induction n generalizing k s with
  | zero => rfl
  | succ n ih =>
    cases hc : cycle s with
    | next t => rw [runLoop_next _ n hc, runLoop_next k n hc, ← ih, Nat.add_assoc]
    | fault f => rw [runLoop_fault _ n hc, runLoop_fault k n hc]; rfl
    | refused r => rw [runLoop_refused _ n hc, runLoop_refused k n hc]; rfl

/-- Completed cycles at the start of a run can be cut off it. -/
theorem runLoop_of_completes {a k : Nat} {s t : State} (h : Completes a s t) (b : Nat) :
    runLoop k (a + b) s = runLoop (a + k) b t := by
  induction h generalizing k with
  | none s => rw [Nat.zero_add, Nat.zero_add]
  | more n s t u hc _ ih =>
    rw [Nat.add_right_comm n 1 b, runLoop_next k _ hc, ih, Nat.add_right_comm n 1 k, Nat.add_assoc]

/-- Settles O51: the second run is the rest of the one, with the cycles of the first counted. -/
theorem runsCompose : Obligations.RunsCompose := by
  refine ⟨fun s => rfl, fun a b s t h => ?_⟩
  have hrest : run (a + b) s = ((run b t).1, (run b t).2.addCycles a) :=
    (runLoop_of_completes (runLoop_eq_ok.mp h) b).trans (runLoop_add a 0 b t)
  rw [hrest]
  exact ⟨rfl, fun hok => by rw [hok]; rfl, fun e he => by rw [he]; rfl⟩

/-- Settles O52: the state kept by the failed run is the one whose cycle is fatal. -/
theorem aFailedRunFailsAgainTheSameWay : Obligations.AFailedRunFailsAgainTheSameWay := by
  intro n m s t e h hm
  obtain ⟨_, _, _, _, hfault, hpc⟩ := runLoop_eq_err.mp h
  obtain ⟨m, rfl⟩ := Nat.exists_eq_succ_of_ne_zero hm.ne'
  rw [run, runLoop_fault 0 m hfault, hpc]

/-! ## The machine's steps under a run's budget (10_state.md section 7) -/

theorem branch_setBudget (c : Bool) (y : Src2) (s : State) (k : Nat) :
    branch c y (s.setBudget (some k)) = spend k (branch c y s) := by
  rw [branch_eq_commit_branchPc, branch_eq_commit_branchPc]
  show commit ((branchPc c s.pc s.cfg.memSize (s.operandY y)).map _) = _
  cases branchPc c s.pc s.cfg.memSize (s.operandY y) <;> rfl

/-- An instruction does the same under any budget, and keeps it (40_cycle.md R88). -/
theorem exec_setBudget (i : Instr) (s : State) (k : Nat) :
    exec i (s.setBudget (some k)) = spend k (exec i s) := by
  cases hrow : Instr.branchRow? s.flags i with
  | some row =>
    have hrow' : Instr.branchRow? (s.setBudget (some k)).flags i = some row := hrow
    rw [exec_eq_branch hrow, exec_eq_branch hrow', branch_setBudget]
  | none =>
    cases i with
    | beq | bneq | blt | ble | bgt | bge | b | bcs | bcc | bmi | bpl | bvs | bvc | bhi | bls => cases hrow
    | nop | add | sub | mul | neg | and | or | xor | not | lsl | lsr | asr => rfl
    | div d a y => rw [exec, exec, execDiv, execDiv, apply_ite (spend k)]; rfl
    | ldr d y => rw [exec_ldr, exec_ldr, apply_ite (spend k)]; rfl
    | str d a y => rw [exec_str, exec_str, apply_ite (spend k)]; rfl

/-- A cycle neither reads nor writes the budget. -/
theorem cycle_setBudget (s : State) (k : Nat) : cycle (s.setBudget (some k)) = spend k (cycle s) := by
  by_cases hpc : s.pc < s.cfg.memSize
  · cases hd : decode s.cfg.opcodeMap (s.word s.pc) with
    | error e => rw [cycle_undecoded hpc hd, cycle_undecoded (s := s.setBudget (some k)) hpc hd, spend_fault]
    | ok i => rw [cycle_decoded hpc hd, cycle_decoded (s := s.setBudget (some k)) hpc hd, exec_setBudget]
  · have hout : s.cfg.memSize ≤ s.pc := Nat.le_of_not_lt hpc
    rw [cycle_outside hout, cycle_outside (s := s.setBudget (some k)) hout, spend_fault, setBudget_pc]

/-- A step with budget left is a cycle, and takes 1 from the budget (40_cycle.md R87). -/
theorem step_setBudget_next {s t : State} (h : cycle s = .next t) (k : Nat) :
    step (s.setBudget (some (k + 1))) = .next (t.setBudget (some k)) := by
  rw [step_running rfl, cycle_setBudget, h, spend_next, spend_next, setBudget_setBudget]

theorem step_setBudget_fault {s : State} {f : Fault} (h : cycle s = .fault f) (k : Nat) :
    step (s.setBudget (some (k + 1))) = .fault f := by
  rw [step_running rfl, cycle_setBudget, h, spend_fault, spend_fault]

section CoreRun
variable {M : Host.Core} {s t : M.State} (k : Nat)

theorem coreRun_next (h : M.step s = .next t) : M.run (k + 1) s = M.run k t := by
  rw [Host.Core.run, h]

theorem coreRun_fault {f : M.Fault} (h : M.step s = .fault f) : M.run (k + 1) s = .fault f := by
  rw [Host.Core.run, h]

end CoreRun

/-- Completed cycles are as many steps under a budget that covers them. -/
theorem coreRun_of_completes {j : Nat} {s t : State} (h : Completes j s t) (m r : Nat) :
    Host.Core.run core (j + r) (s.setBudget (some (j + m))) = Host.Core.run core r (t.setBudget (some m)) := by
  induction h with
  | none s => rw [Nat.zero_add, Nat.zero_add]
  | more n s t u hc _ ih =>
    rw [Nat.add_right_comm n 1 r, Nat.add_right_comm n 1 m]
    refine Eq.trans ?_ ih
    exact coreRun_next (M := core) (n + r) (step_setBudget_next hc (n + m))

theorem completes_budget {j : Nat} {s t : State} (h : Completes j s t) : t.budget = s.budget := by
  induction h with
  | none s => rfl
  | more n s t u hc _ ih => rw [ih, cycle_budget hc]

/-- Settles O53: a run's completed cycles are budgeted steps; at their end comes the step at budget 0, which leaves no
run in progress, as at the start, or the step whose cycle is fatal. -/
theorem budgetedStepsDoWhatRunDoes : Obligations.BudgetedStepsDoWhatRunDoes := by
  refine fun n s t hidle => ⟨fun h => ?completed, fun e h => ?fatal⟩
  case completed =>
    have hcompletes := runLoop_eq_ok.mp h
    have hreturn : step (t.setBudget (some 0)) = .next t := by
      rw [step_exhausted rfl, setBudget_setBudget, ← hidle, ← completes_budget hcompletes, setBudget_self]
    exact (coreRun_of_completes hcompletes 0 1).trans (coreRun_next (M := core) 0 hreturn)
  case fatal =>
    obtain ⟨j, hj, -, hcompletes, hfault, -⟩ := runLoop_eq_err.mp h
    obtain ⟨m, rfl⟩ := Nat.exists_eq_add_of_lt hj
    exact (coreRun_of_completes hcompletes (m + 1) (m + 2)).trans
      (coreRun_fault (M := core) (m + 1) (step_setBudget_fault hfault m))

end Sys2Proof.Machine
end

section
namespace Sys2Proof.Machine

/-! ## Arithmetic (42_arithmetic.md sections 1 and 2) -/

/-- The arithmetic result shape names `x[d]`, the flags and the pc, and nothing else. -/
theorem onlyRegAndFlags_arithmetic (d : Reg) (s : State) (u : Int) (c : Int → Bool) :
    OnlyRegAndFlags d s (s.arithmetic d u c) :=
  ⟨fun _ hr => arithmetic_reg_other s u c hr, arithmetic_word s d u c, arithmetic_pc s d u c, arithmetic_cfg s d u c,
    arithmetic_budget s d u c⟩

/-- The arithmetic result shape of an unbounded result is a completion with its 8 bits and its carry
(42_arithmetic.md R105 to R109). -/
theorem arithmeticCompletes_of_exec {i : Instr} {s : State} {d : Reg} {u : Int} {carry : Int → Bool} {r : Byte}
    {c : Bool} (h : exec i s = .next (s.arithmetic d u carry)) (hr : as8 u = r) (hc : carry u = c) :
    ArithmeticCompletes i s d r c := by
  subst hr hc
  refine ⟨_, h, arithmetic_reg_self s d u carry, ?_, ?_, rfl, ?_, onlyRegAndFlags_arithmetic d s u carry⟩ <;>
    simp only [arithmetic_flags, arithFlags, overflowFlag, zeroFlag_eq, negativeFlag_eq]

section As8
variable (x y : Byte)

theorem as8_add : as8 (x.toNat + y.toNat) = x + y := by
  simp [as8, BitVec.ofInt_add]

theorem as8_sub : as8 (x.toNat - y.toNat) = x - y := by
  simp [as8, Int.sub_eq_add_neg, BitVec.ofInt_add, BitVec.ofInt_neg, BitVec.sub_eq_add_neg]

theorem as8_mul : as8 (x.toNat * y.toNat) = x * y := by
  simp [as8, BitVec.ofInt_mul]

theorem as8_neg : as8 (0 - (y.toNat : Int)) = -y := by
  simp [as8, BitVec.ofInt_neg]

theorem as8_quotient : as8 (quotient x y) = x / y := by
  have hlt : x.toNat / y.toNat < 2 ^ 8 := Nat.lt_of_le_of_lt (Nat.div_le_self _ _) x.isLt
  apply BitVec.eq_of_toNat_eq
  rw [as8, quotient, BitVec.ofInt_natCast, BitVec.toNat_ofNat, Nat.mod_eq_of_lt hlt, BitVec.toNat_udiv]

end As8

section Carry
variable (x y : Byte)

theorem carryAdd_add : carryAdd (x.toNat + y.toNat) = decide (255 < x.toNat + y.toNat) :=
  decide_eq_decide.mpr (by omega)

/-- A borrow is a first operand below the second (42_arithmetic.md R108). -/
theorem carrySub_sub : carrySub (x.toNat - y.toNat) = decide (x.toNat < y.toNat) :=
  decide_eq_decide.mpr (by omega)

theorem carryMul_mul : carryMul (x.toNat * y.toNat) = decide (255 < x.toNat * y.toNat) :=
  decide_eq_decide.mpr (by norm_cast)

/-- Negating borrows from 0, unless the operand is 0 (42_arithmetic.md R108). -/
theorem carryNeg_neg : carryNeg (0 - (y.toNat : Int)) = decide (y ≠ 0) := by
  refine decide_eq_decide.mpr ?_
  rw [Ne, ← BitVec.toNat_inj, show (0 : Byte).toNat = 0 from rfl]
  omega

end Carry

/-- Settles O19: ADD has the arithmetic result shape, of the unbounded sum. -/
theorem addWritesSumAndFlags : Obligations.AddWritesSumAndFlags := fun _ _ _ _ =>
  arithmeticCompletes_of_exec rfl (as8_add _ _) (carryAdd_add _ _)

/-- Settles O20: SUB has the arithmetic result shape, of the unbounded difference. -/
theorem subWritesDifferenceAndFlags : Obligations.SubWritesDifferenceAndFlags := fun _ _ _ _ =>
  arithmeticCompletes_of_exec rfl (as8_sub _ _) (carrySub_sub _ _)

/-- Settles O21: MUL has the arithmetic result shape, of the unbounded product. -/
theorem mulWritesLowByteAndFlags : Obligations.MulWritesLowByteAndFlags := fun _ _ _ _ =>
  arithmeticCompletes_of_exec rfl (as8_mul _ _) (carryMul_mul _ _)

/-- DIV by a `Y8` that is not 0, whole (42_arithmetic.md R113). -/
theorem exec_div_of_ne_zero {s : State} {y : Src2} (d a : Reg) (h : s.operandY8 y ≠ 0) :
    exec (.div d a y) s = .next (s.arithmetic d (quotient (s.reg a) (s.operandY8 y)) carryDiv) := if_neg h

/-- Settles O22: DIV by a `Y8` that is not 0 has the arithmetic result shape, of the unsigned quotient. -/
theorem divWritesQuotientOrFaults : Obligations.DivWritesQuotientOrFaults := fun d a _ _ =>
  ⟨fun hne => arithmeticCompletes_of_exec (exec_div_of_ne_zero d a hne) (as8_quotient _ _) rfl,
    fun hzero => exec_div_eq_fault.mpr ⟨hzero, rfl⟩⟩

/-- Settles O23: NEG has the arithmetic result shape, of `0 - Y8`. -/
theorem negWritesNegationAndFlags : Obligations.NegWritesNegationAndFlags := fun _ _ _ =>
  arithmeticCompletes_of_exec rfl (as8_neg _) (carryNeg_neg _)

/-- A completed arithmetic instruction leaves the flags of the value it wrote (42_arithmetic.md R106 to R109). -/
theorem flags_of_arithmetic {i : Instr} {d : Reg} {s t : State} (hi : Instr.isArithmetic i = true)
    (hd : Instr.resultReg? i = some d) (h : exec i s = .next t) : ∃ c, t.flags = arithFlags (t.reg d) c := by
  cases exec_next h with
  | arithmetic d' u c hres =>
    obtain rfl : d' = d := Option.some.inj (hres.symm.trans hd)
    exact ⟨c u, by rw [arithmetic_reg_self, arithmetic_flags]⟩
  | logical _ _ _ hnot => cases hnot.symm.trans hi
  | jump _ _ hnot => cases hnot.symm.trans hi
  | store _ _ _ hstr => subst hstr; cases hi

/-- Overflow after an arithmetic result says it is 0 or at least 128 (42_arithmetic.md R109). -/
theorem overflow_arithFlags_iff (r : Byte) (c : Bool) : (arithFlags r c).v = true ↔ r = 0 ∨ 128 ≤ r.toNat := by
  rw [arithFlags, overflowFlag_eq_or, negativeFlag_eq, Bool.or_eq_true, decide_eq_true_iff, zeroFlag, beq_iff_eq,
    or_comm]

/-- Settles O24: the overflow rule is that of the flags of the value written. -/
theorem overflowIsNegativeDiffersFromZero : Obligations.OverflowIsNegativeDiffersFromZero := by
  intro i d s t hi hd h
  obtain ⟨c, hflags⟩ := flags_of_arithmetic hi hd h
  rw [hflags]
  exact ⟨rfl, overflowFlag_eq_or _, overflow_arithFlags_iff _ c⟩

/-! ## Logical and shift (43_logical_shift.md) -/

/-- Settles O26: each has the logical result shape, of the operation on bytes. -/
theorem bitwiseResults : Obligations.BitwiseResults := by
  intro d a y s
  have hnot : (~~~s.operandY8 y).toNat = 255 - (s.operandY8 y).toNat := BitVec.toNat_not
  rw [← BitVec.toNat_and, ← BitVec.toNat_or, ← BitVec.toNat_xor, ← hnot]
  exact ⟨logicalCompletes_of_exec rfl, logicalCompletes_of_exec rfl, logicalCompletes_of_exec rfl,
    logicalCompletes_of_exec rfl⟩

theorem toNat_shiftLeft (x y8 : Byte) : (shiftLeft x y8).toNat = x.toNat * 2 ^ y8.toNat % 256 := by
  rw [shiftLeft, BitVec.toNat_shiftLeft, Nat.shiftLeft_eq]

theorem toNat_shiftRight (x y8 : Byte) : (shiftRight x y8).toNat = x.toNat / 2 ^ y8.toNat := by
  rw [shiftRight, BitVec.toNat_ushiftRight, Nat.shiftRight_eq_div_pow]

/-- Dividing a signed byte by 256 or more leaves its sign only. -/
theorem toInt_div_of_256_le (x : Byte) {p : Int} (hp : 256 ≤ p) : x.toInt / p = if x.toInt < 0 then -1 else 0 := by
  have hlo : -128 ≤ x.toInt := BitVec.le_toInt x
  have hhi : x.toInt < 128 := BitVec.toInt_lt
  rw [Int.ediv_eq_iff_of_pos (by omega)]
  split <;> omega

/-- An amount above 8 shifts as 8 does (43_logical_shift.md R131). -/
theorem toInt_div_two_pow_min (x : Byte) (n : Nat) : x.toInt / 2 ^ min n 8 = x.toInt / 2 ^ n := by
  obtain hn | hn := Nat.le_total n 8
  · rw [Nat.min_eq_left hn]
  · have hpow : (2 : Int) ^ 8 ≤ 2 ^ n := pow_le_pow_right₀ (by decide) hn
    rw [Nat.min_eq_right hn, toInt_div_of_256_le x hpow, toInt_div_of_256_le x (by decide)]

theorem toNat_shiftRightSigned (x y8 : Byte) :
    (shiftRightSigned x y8).toNat = (x.toInt / 2 ^ min y8.toNat 8 % 256).toNat := by
  have hint : (shiftRightSigned x y8).toInt = x.toInt / 2 ^ min y8.toNat 8 := by
    rw [toInt_div_two_pow_min, shiftRightSigned, BitVec.toInt_sshiftRight, Int.shiftRight_eq_div_pow, Nat.cast_pow]
    rfl
  rw [← hint, ← toNat_as8, as8, BitVec.ofInt_toInt]

/-- Settles O27: each has the logical result shape, of the shifted byte. -/
theorem shiftResults : Obligations.ShiftResults := by
  intro d a y s
  rw [← toNat_shiftLeft, ← toNat_shiftRight, ← toNat_shiftRightSigned]
  exact ⟨logicalCompletes_of_exec rfl, logicalCompletes_of_exec rfl, logicalCompletes_of_exec rfl⟩

/-- The pattern of an immediate is 256 above it (40_cycle.md R84). -/
theorem toNat_operandY8_imm {k : Int} (hk : (Src2.imm k).wf = true) (s : State) :
    ((s.operandY8 (.imm k)).toNat : Int) = k + 256 := by
  simp only [Src2.wf, Bool.and_eq_true, decide_eq_true_eq] at hk
  rw [State.operandY8, toNat_as8, operandY_imm]
  omega

/-- Settles O17: a register is its own pattern, and an immediate's pattern is 256 above it. -/
theorem secondOperandAndItsBytePattern : Obligations.SecondOperandAndItsBytePattern := fun s =>
  ⟨fun r => ⟨operandY_reg s r, operandY8_reg s r⟩, fun k hk => ⟨operandY_imm s k, toNat_operandY8_imm hk s⟩⟩

/-- Settles O28: an immediate's amount is 240 or more, so at least 8. -/
theorem immediateShiftsSaturate : Obligations.ImmediateShiftsSaturate := by
  intro d a k s hk
  obtain ⟨hlsl, hlsr, hasr⟩ := shiftResults d a (.imm k) s
  have hamount : 8 ≤ (s.operandY8 (.imm k)).toNat := by
    have hY8 := toNat_operandY8_imm hk s
    simp only [Src2.wf, Bool.and_eq_true, decide_eq_true_eq] at hk
    omega
  have hpow : 2 ^ 8 ∣ 2 ^ (s.operandY8 (.imm k)).toNat := Nat.pow_dvd_pow 2 hamount
  have hX : (s.reg a).toNat < 2 ^ 8 := (s.reg a).isLt
  have hleft : (s.reg a).toNat * 2 ^ (s.operandY8 (.imm k)).toNat % 256 = 0 :=
    Nat.mod_eq_zero_of_dvd (Nat.dvd_mul_left_of_dvd hpow _)
  have hright : (s.reg a).toNat / 2 ^ (s.operandY8 (.imm k)).toNat = 0 :=
    Nat.div_eq_of_lt (Nat.lt_of_lt_of_le hX (Nat.le_of_dvd (Nat.two_pow_pos _) hpow))
  have hsigned : ((s.reg a).toInt / 2 ^ min (s.operandY8 (.imm k)).toNat 8 % 256).toNat =
      if (s.reg a).toNat < 128 then 0 else 255 := by
    rw [Nat.min_eq_right hamount, toInt_div_of_256_le _ (by decide), BitVec.toInt_eq_toNat_cond]
    split_ifs <;> omega
  rw [hleft] at hlsl
  rw [hright] at hlsr
  rw [hsigned] at hasr
  exact ⟨hlsl, hlsr, hasr⟩

/-! ## Branches (44_branch.md) -/

/-- An instruction whose row has the condition `cond` goes where `cond` says. -/
theorem branchesOn_of_branchRow {branchOf : Src2 → Instr} {cond : Flags → Bool}
    (hrow : ∀ f y, Instr.branchRow? f (branchOf y) = some (y, cond f)) : BranchesOn branchOf cond := by
  intro y s
  rw [exec_eq_branch (hrow s.flags y), branch_eq, State.branchTarget]
  refine ⟨fun hnot => ?_, fun htaken hr => ?_, fun htaken hr => ?_⟩
  · rw [hnot, if_neg Bool.false_ne_true, State.advance, State.setPc]
  · rw [if_pos htaken, if_pos hr, State.setPc]
  · rw [if_pos htaken, if_neg hr]

/-- Settles O30: each condition is the one in the branch's row. -/
theorem comparisonBranchesGoWhereTheConditionSays : Obligations.ComparisonBranchesGoWhereTheConditionSays := by
  refine ⟨?_, ?_, ?_, ?_, ?_, ?_⟩ <;> exact branchesOn_of_branchRow fun _ _ => rfl

/-- Settles O31: each condition is the one in the branch's row. -/
theorem singleFlagBranchesGoWhereTheConditionSays : Obligations.SingleFlagBranchesGoWhereTheConditionSays := by
  refine ⟨?_, ?_, ?_, ?_, ?_, ?_, ?_⟩ <;> exact branchesOn_of_branchRow fun _ _ => rfl

/-- Settles O32: each condition is the one in the branch's row. -/
theorem carryZeroBranchesGoWhereTheConditionSays : Obligations.CarryZeroBranchesGoWhereTheConditionSays := by
  refine ⟨?_, ?_⟩ <;> exact branchesOn_of_branchRow fun _ _ => rfl

section BranchesOn
variable {branchOf : Src2 → Instr} {cond : Flags → Bool} (h : BranchesOn branchOf cond) {y : Src2} {s : State}
include h

theorem BranchesOn.notTaken (hcond : cond s.flags = false) :
    exec (branchOf y) s = .next { s with pc := s.pc + 1 } := (h y s).1 hcond

theorem BranchesOn.taken (hcond : cond s.flags = true) (hr : s.inRange ((s.pc : Int) + 1 + s.operandY y)) :
    exec (branchOf y) s = .next { s with pc := ((s.pc : Int) + 1 + s.operandY y).toNat } := (h y s).2.1 hcond hr

end BranchesOn

/-- After an arithmetic instruction "Negative != Overflow" says Zero (42_arithmetic.md R109). -/
theorem negative_bne_overflow_arithFlags (r : Byte) (c : Bool) :
    ((arithFlags r c).n != (arithFlags r c).v) = (arithFlags r c).z := by
  rw [arithFlags, overflowFlag]
  cases negativeFlag r <;> cases zeroFlag r <;> rfl

theorem negative_beq_overflow_arithFlags (r : Byte) (c : Bool) :
    ((arithFlags r c).n == (arithFlags r c).v) = !(arithFlags r c).z := by
  rw [← negative_bne_overflow_arithFlags, bne, Bool.not_not]

/-- Settles O35: after an arithmetic result with Zero `z`, BLT has the condition `z`, BGE and BLE `!z`, BGT
`z && !z`, and BVS and BVC that of Overflow. -/
theorem signedBranchesAfterArithmetic : Obligations.SignedBranchesAfterArithmetic := by
  intro i d s t hi hd h y
  obtain ⟨-, -, hblt, hble, hbgt, hbge⟩ := comparisonBranchesGoWhereTheConditionSays
  obtain ⟨-, -, -, -, -, hbvs, hbvc⟩ := singleFlagBranchesGoWhereTheConditionSays
  obtain ⟨c, hflags⟩ := flags_of_arithmetic hi hd h
  have hz : t.flags.z = (t.reg d == 0) := by rw [hflags, arithFlags, zeroFlag]
  have hne : (t.flags.n != t.flags.v) = t.flags.z := by rw [hflags, negative_bne_overflow_arithFlags]
  have heq : (t.flags.n == t.flags.v) = !t.flags.z := by rw [hflags, negative_beq_overflow_arithFlags]
  have hle : (!t.flags.z && (t.flags.n == t.flags.v)) = !t.flags.z := by rw [heq, Bool.and_self]
  have hgt : (t.flags.z && (t.flags.n == t.flags.v)) = false := by rw [heq, Bool.and_not_self]
  have hv : t.flags.v = true ↔ t.reg d = 0 ∨ 128 ≤ (t.reg d).toNat := by rw [hflags, overflow_arithFlags_iff]
  have hzero (hR : t.reg d = 0) : t.flags.z = true := by rw [hz, hR, beq_self_eq_true]
  have hnonzero (hR : t.reg d ≠ 0) : t.flags.z = false := by rw [hz, beq_eq_false_iff_ne.mpr hR]
  have hpositive (hlo : 1 ≤ (t.reg d).toNat) (hhi : (t.reg d).toNat < 128) : t.flags.v = false := by
    rw [← Bool.not_eq_true, hv, ← BitVec.toNat_inj, show (0 : Byte).toNat = 0 from rfl]
    omega
  have hclear (hR : t.reg d = 0) : (!t.flags.z) = false := congrArg not (hzero hR)
  have hset (hR : t.reg d ≠ 0) : (!t.flags.z) = true := congrArg not (hnonzero hR)
  refine ⟨hbgt.notTaken hgt, fun hR => hblt.notTaken (hne.trans (hnonzero hR)), fun hR => ?zero,
    fun hlo hhi => hbvs.notTaken (hpositive hlo hhi), fun hR => hbvc.notTaken (congrArg not (hv.mpr hR)),
    fun hr => ⟨fun hR => hblt.taken (hne.trans (hzero hR)) hr, fun hR => ?nonzero,
      fun hlo hhi => hbvc.taken (congrArg not (hpositive hlo hhi)) hr, fun hR => hbvs.taken (hv.mpr hR) hr⟩⟩
  case zero => exact ⟨hbge.notTaken (heq.trans (hclear hR)), hble.notTaken (hle.trans (hclear hR))⟩
  case nonzero => exact ⟨hbge.taken (heq.trans (hset hR)) hr, hble.taken (hle.trans (hset hR)) hr⟩

end Sys2Proof.Machine
end
